-- ==== Sys2Proof/Word.lean ====
section
/-! DEFINITION. The widths of the values the unit's registers hold (spec/10_state.md R17, spec/00_scope.md R12). -/

namespace Sys2Proof

/-- A 32-bit bus word: a command word, a register's word, the host's scratch value. -/
abbrev Word := BitVec 32

/-- A 64-bit operand or result (`ARG`, `RES`). -/
abbrev DWord := BitVec 64

/-- A byte of text (R12). -/
abbrev Byte := BitVec 8

/-- A digit, "a natural in [0, 32)" (R12); also the width of `ACC`. -/
abbrev Digit := BitVec 5

end Sys2Proof
end

