-- ==== Sys2Proof/Syntax.lean ====
section
/-! DEFINITION. The unit's commands, one constructor per row of spec/opcode_table.json (spec/30_encoding.md R52).
No command word has an operand field (R50), so no constructor has an argument. -/

namespace Sys2Proof

/-- The eleven commands. -/
inductive Instr where
  /-- 0x00 NOP (R95) -/
  | nop
  /-- 0x01 SYMBOL_OF (R61) -/
  | symbolOf
  /-- 0x02 DIGIT_OF (R62) -/
  | digitOf
  /-- 0x03 NORMALIZE (R68) -/
  | normalize
  /-- 0x04 MASK (R75) -/
  | mask
  /-- 0x05 UNMASK (R76) -/
  | unmask
  /-- 0x06 CSUM_CLEAR (R82) -/
  | csumClear
  /-- 0x07 CSUM_STEP (R83) -/
  | csumStep
  /-- 0x08 CSUM_VERIFY (R84) -/
  | csumVerify
  /-- 0x09 ENCODE (R91) -/
  | encode
  /-- 0x0A DECODE (R92) -/
  | decode
  deriving DecidableEq, Repr

end Sys2Proof
end

