-- ==== Sys2Proof/Decode.lean ====
section
/-! DEFINITION. From a command word to a command and back (spec/30_encoding.md R49, R52, R53). Every command is one
32-bit word; decoding is total, and a word that is no command is rejected by name. -/

namespace Sys2Proof

/-- Why a word is no command (R53). Whoever executes such a word takes the error ILLEGAL_COMMAND, a next state. -/
inductive IllegalWord where
  /-- bits [31:8] are not zero, "whatever its OPC" -/
  | mbzNotZero
  /-- bits [31:8] are zero and OPC is 0x0B to 0xFF -/
  | reservedOpcode
  deriving DecidableEq, Repr

/-- The field `OPC`, bits [7:0] (R49). -/
def opcOf (w : Word) : Byte := w.extractLsb' 0 8

/-- The field `MBZ`, bits [31:8] (R49). -/
def mbzOf (w : Word) : BitVec 24 := w.extractLsb' 8 24

/-- The opcode map (R52); `none` is a reserved opcode (R53). -/
def commandOf (opc : Byte) : Option Instr :=
  match opc.toNat with
  | 0x00 => some .nop
  | 0x01 => some .symbolOf
  | 0x02 => some .digitOf
  | 0x03 => some .normalize
  | 0x04 => some .mask
  | 0x05 => some .unmask
  | 0x06 => some .csumClear
  | 0x07 => some .csumStep
  | 0x08 => some .csumVerify
  | 0x09 => some .encode
  | 0x0A => some .decode
  | _ => none

/-- Decode a command word (R49): the must-be-zero field first, then the opcode. -/
def decode (w : Word) : Except IllegalWord Instr :=
  if mbzOf w ≠ 0 then .error .mbzNotZero
  else
    match commandOf (opcOf w) with
    | some i => .ok i
    | none => .error .reservedOpcode

/-- The opcode of a command (R52). -/
def opcodeOf : Instr → Byte
  | .nop => 0x00
  | .symbolOf => 0x01
  | .digitOf => 0x02
  | .normalize => 0x03
  | .mask => 0x04
  | .unmask => 0x05
  | .csumClear => 0x06
  | .csumStep => 0x07
  | .csumVerify => 0x08
  | .encode => 0x09
  | .decode => 0x0A

/-- The one word of a command: `OPC` in bits [7:0] under a zero `MBZ` (R49). -/
def encode (i : Instr) : Word := (0 : BitVec 24) ++ opcodeOf i

/-- What the decoder reads from the low `nbits` bits of `w`; every bit above them is 0. A command is one word, so
nothing longer is one. -/
def decodeTableWord (nbits w : Nat) : Option Instr :=
  if nbits ≤ 32 then (decode (BitVec.ofNat 32 (w % 2 ^ nbits))).toOption else none

end Sys2Proof
end

