-- ==== Sys2Proof/Machine/Script.lean ====
section
/-! DEFINITION. The host's side as data: bus transactions and the host script (spec/30_encoding.md R55, R56), and the
expansion of a script line into its transactions. -/

namespace Sys2Proof.Machine

/-- A register name of the script: the names of spec/20_memory.md R35, word `k` of a buffer, or a plain offset (the
script of spec/95_test_vectors.md P5 reads `0x30`). -/
inductive Reg where
  | cmd | status | argLo | argHi | resLo | resHi | acc | ibufLen | obufLen | errInfo
  | ibufWord (k : Fin 16)
  | obufWord (k : Fin 16)
  | plain (off : Nat)
  deriving DecidableEq, Repr

/-- What a script write writes: an immediate, or the scratch value `t` (R55). -/
inductive Src where
  | imm (v : Word)
  | scratch
  deriving DecidableEq, Repr

/-- One thing that reaches the unit from outside. Offsets are counted from `BASE`, so an address below the window has
a negative one. -/
inductive Transaction where
  /-- `MemWrite(BASE + off, size, v)` (spec/20_memory.md R37), `v` the value of `src` when the access is made -/
  | write (off : Int) (size : Nat) (src : Src)
  /-- `MemRead(BASE + off, size)`; the value goes to `t` (R55) -/
  | read (off : Int) (size : Nat)
  /-- the first access of `rdstr`: it reads `OBUF_LEN`, which says how many words `rdstr` reads after it (R56) -/
  | readText
  /-- the platform resets the unit (spec/70_reset_and_hazards.md R112; log entry 6) -/
  | reset
  deriving DecidableEq, Repr

/-- A line of a host script. A label is the index of the line it stands before (log entry 7). -/
inductive Line where
  /-- `wr <reg>, <imm32>` or `wr <reg>, t` -/
  | wr (reg : Reg) (src : Src)
  /-- `rd <reg>` -/
  | rd (reg : Reg)
  /-- `cmd <MNEMONIC>` -/
  | cmd (i : Instr)
  /-- `li64 ARG, <imm64>` -/
  | li64 (v : DWord)
  /-- `lstr "<text>"` -/
  | lstr (text : List Byte)
  /-- `clrsticky` -/
  | clrsticky
  /-- `rd64 RES` -/
  | rd64
  /-- `rdstr` -/
  | rdstr
  /-- `beq <imm>, <label>` -/
  | beq (imm : Word) (label : Nat)
  /-- `bne <imm>, <label>` -/
  | bne (imm : Word) (label : Nat)
  /-- `andi <imm>` -/
  | andi (imm : Word)
  /-- `halt` -/
  | halt
  deriving DecidableEq, Repr

/-- The offset of a register (spec/20_memory.md R35). -/
def offsetOf : Reg → Nat
  | .cmd => 0x00
  | .status => 0x04
  | .argLo => 0x08
  | .argHi => 0x0C
  | .resLo => 0x10
  | .resHi => 0x14
  | .acc => 0x18
  | .ibufLen => 0x1C
  | .obufLen => 0x20
  | .errInfo => 0x24
  | .ibufWord k => 0x40 + 4 * k.val
  | .obufWord k => 0x80 + 4 * k.val
  | .plain off => off

/-- A 4-byte write of a register. -/
def writeReg (reg : Reg) (src : Src) : Transaction := .write (offsetOf reg) 4 src

/-- A 4-byte read of a register. -/
def readReg (reg : Reg) : Transaction := .read (offsetOf reg) 4

/-- Four bytes packed little-endian, the first in bits [7:0] (spec/20_memory.md R41). -/
def packWord (b0 b1 b2 b3 : Byte) : Word := b3 ++ b2 ++ b1 ++ b0

/-- Word `k` of a string: its bytes `4k` to `4k+3`; "a missing byte of the last word is 0" (R56). -/
def textWord (text : List Byte) (k : Nat) : Word :=
  packWord (text.getD (4 * k) 0) (text.getD (4 * k + 1) 0) (text.getD (4 * k + 2) 0) (text.getD (4 * k + 3) 0)

/-- `ceil(n/4)`, the number of words that hold `n` bytes. -/
def wordsFor (n : Nat) : Nat := (n + 3) / 4

/-- The accesses of `lstr` (R56): the words of the text, then its length. -/
def loadText (text : List Byte) : List Transaction :=
  (List.range (wordsFor text.length)).map (fun k => Transaction.write ((0x40 + 4 * k : Nat) : Int) 4 (.imm (textWord text k)))
    ++ [writeReg .ibufLen (.imm (BitVec.ofNat 32 text.length))]

/-- The reads that follow in `rdstr` once `OBUF_LEN` has read as `n` (R56). -/
def textReads (n : Nat) : List Transaction :=
  (List.range (wordsFor n)).map (fun k => Transaction.read ((0x80 + 4 * k : Nat) : Int) 4)

/-- The transactions a line expands to (R55, R56): the first, and those after it. `none` for the four lines that "put
nothing on the bus", and for an `lstr` of more than 64 bytes, to which R56 gives no expansion. -/
def expand : Line → Option (List Transaction)
  | .wr reg src => some [writeReg reg src]
  | .rd reg => some [readReg reg]
  | .cmd i => some [writeReg .cmd (.imm (encode i))]
  | .li64 v => some [writeReg .argLo (.imm (v.extractLsb' 0 32)), writeReg .argHi (.imm (v.extractLsb' 32 32))]
  | .lstr text => if text.length ≤ 64 then some (loadText text) else none
  | .clrsticky => some [writeReg .status (.imm 0x100)]
  | .rd64 => some [readReg .resLo, readReg .resHi]
  | .rdstr => some [.readText]
  | .beq _ _ => none
  | .bne _ _ => none
  | .andi _ => none
  | .halt => none

end Sys2Proof.Machine
end

