-- ==== Sys2Proof/WellFormed.lean ====
section
/-! DEFINITION. Which terms stand for something the spec writes. A command has no operand field (spec/30_encoding.md R50),
so every `Instr` does; a script line has one check of its own for each bound R55 and R56 put on it. -/

namespace Sys2Proof

/-- A command word holds no operand, so no command can be ill-formed. -/
def Instr.WellFormed (_ : Instr) : Bool := true

end Sys2Proof

namespace Sys2Proof.Machine

/-- A register name stands for a 32-bit word of the window: aligned and inside it (R35). -/
def Reg.WellFormed (r : Reg) : Bool := offsetOf r % 4 == 0 && offsetOf r < 0x100

/-- A line of a script of `n` lines: its register is one of the window's, its text has at most 64 bytes, its label stands
before a line of the script or at its end. -/
def Line.WellFormed (n : Nat) : Line → Bool
  | .wr reg _ => reg.WellFormed
  | .rd reg => reg.WellFormed
  | .cmd i => i.WellFormed
  | .lstr text => text.length ≤ 64
  | .beq _ label => label ≤ n
  | .bne _ label => label ≤ n
  | .li64 _ => true
  | .clrsticky => true
  | .rd64 => true
  | .rdstr => true
  | .andi _ => true
  | .halt => true

/-- Every line of a script is well-formed. -/
def Script.WellFormed (script : List Line) : Bool := script.all (Line.WellFormed script.length)

end Sys2Proof.Machine
end

