-- ==== Sys2Proof/Machine/State.lean ====
section
/-! DEFINITION. The machine's state as plain data: the twelve fields of the unit (spec/10_state.md R17) and, beside them, the
host that drives it (spec/30_encoding.md R55, R56); the ways a step can stop; the state after reset. -/

namespace Sys2Proof.Machine

/-- The host agent: the MODEL's own part of the state, not the unit's (log entry 1). -/
structure HostSide where
  /-- the host script -/
  script : List Line
  /-- the index of the script's next line -/
  line : Nat
  /-- `t`, "the script's scratch value, the value of the last `rd`" (R55) -/
  scratch : Word
  /-- whether `halt` has been reached (R56) -/
  halted : Bool
  /-- transactions still to be made before the next line, in issue order -/
  pending : List Transaction
  deriving DecidableEq, Repr

/-- The unit's fields, exactly those of R17, and the host. -/
structure State where
  /-- `CMD_LAST`, the last word written to CMD (R24) -/
  cmdLast : Word
  /-- `ERR`, the last command's error code (R25) -/
  err : BitVec 4
  /-- `STICKY`, set when any command has failed since it was last cleared (R25) -/
  sticky : Bool
  /-- `ARG`, the operand (R26) -/
  arg : DWord
  /-- `RES`, the result (R27) -/
  res : DWord
  /-- `ACC`, the checksum accumulator (R28) -/
  acc : Digit
  /-- `IBUF`, the input text (R29) -/
  ibuf : Vector Byte 64
  /-- `IBUF_LEN` (R29) -/
  ibufLen : BitVec 7
  /-- `OBUF`, the output text (R30) -/
  obuf : Vector Byte 64
  /-- `OBUF_LEN` (R30) -/
  obufLen : BitVec 7
  /-- `ERR_SYM`, the offending byte (R31) -/
  errSym : Byte
  /-- `ERR_POS`, its position (R31) -/
  errPos : BitVec 7
  /-- the host that makes the accesses (model's own) -/
  host : HostSide
  deriving DecidableEq, Repr

/-- What stops the machine with a fault: nothing. "An error is not a trap" (spec/60_exceptions.md R104): every error of
a command is a code in `ERR` and a next state, so this type has no constructor (log entry 15; safe). -/
inductive Fault where
  deriving DecidableEq, Repr

/-- What the model gives no step for. -/
inductive Refusal where
  /-- raised by no meaning: for an arm of `exec` with no meaning yet (there is none). Safe. -/
  | notModelled (mnemonic : String)
  /-- raised by an access that is not 4 bytes wide (spec/20_memory.md R38). Safe: nothing can be proved of what follows. -/
  | accessNotFourBytes
  /-- raised by an access outside offsets 0x00 to 0xFF (R38). Safe, as above. -/
  | accessOutsideWindow
  /-- raised by an access not aligned to 4 bytes (R38). Safe, as above. -/
  | accessMisaligned
  /-- raised by a step when the script is at its end and nothing is pending: "no step happens without a host access"
  (spec/70_reset_and_hazards.md R118). Safe. -/
  | noHostAccess
  /-- raised by a step after `halt`, with nothing pending: the end of the program's run (R118). Safe. -/
  | hostHalted
  /-- raised by a script line to which spec/30_encoding.md R56 gives no expansion (`lstr` of more than 64 bytes). Safe. -/
  | noExpansion
  deriving DecidableEq, Repr

/-- A host with no program and nothing to send (log entry 2). -/
def HostSide.idle : HostSide := { script := [], line := 0, scratch := 0, halted := false, pending := [] }

/-- The machine right after reset (spec/70_reset_and_hazards.md R112): every field of the unit is 0. -/
def State.reset : State where
  cmdLast := 0
  err := 0
  sticky := false
  arg := 0
  res := 0
  acc := 0
  ibuf := Vector.replicate 64 0
  ibufLen := 0
  obuf := Vector.replicate 64 0
  obufLen := 0
  errSym := 0
  errPos := 0
  host := HostSide.idle

end Sys2Proof.Machine
end

