-- ==== Sys2Proof/Machine/Flags.lean ====
section
/-! DEFINITION. The unit's status: error codes (spec/60_exceptions.md R98), when `STICKY` is set and cleared
(spec/10_state.md R22, R25), and the words `STATUS` and `ERR_INFO` read as (R25, R31). -/

namespace Sys2Proof.Machine

/-- The error codes by name (R98). -/
inductive ErrCode where
  | none
  | outOfRange
  | invalidCharacter
  | checksumMismatch
  | lengthError
  | operandRange
  | illegalCommand
  deriving DecidableEq, Repr

/-- The number `STATUS.ERR` holds for a code (R98). -/
def errNumber : ErrCode → BitVec 4
  | .none => 0
  | .outOfRange => 1
  | .invalidCharacter => 2
  | .checksumMismatch => 3
  | .lengthError => 4
  | .operandRange => 5
  | .illegalCommand => 6

/-- `STICKY` after a command: set by a failure, never cleared (R22, R99). -/
def stickyAfter (code : ErrCode) (sticky : Bool) : Bool := sticky || code != .none

/-- `STICKY` after a host write `v` of `STATUS`: cleared when bit 8 is 1 (R25). -/
def stickyAfterWrite (v : Word) (sticky : Bool) : Bool := sticky && !v.getLsbD 8

/-- What `STATUS` reads as: `ERR` in [3:0], `STICKY` in [8], reserved bits 0 (R25, R23). -/
def statusWord (s : State) : Word := (0 : BitVec 23) ++ BitVec.ofBool s.sticky ++ (0 : BitVec 4) ++ s.err

/-- What `ERR_INFO` reads as: `ERR_SYM` in [7:0], `ERR_POS` in [14:8], reserved bits 0 (R31, R23). -/
def errInfoWord (s : State) : Word := (0 : BitVec 17) ++ s.errPos ++ s.errSym

end Sys2Proof.Machine
end

