-- ==== Sys2Proof/Config.lean ====
section
/-! DEFINITION. What the spec leaves to the platform: the base address of the register window
(spec/20_memory.md R34, spec/92_eei_decisions.md D2). The constant store (spec/10_state.md R18) is in Machine/Constants.lean. -/

namespace Sys2Proof.Config

/-- Which 256-byte page of the platform's address space holds the window. It has no body: nothing in Lean can evaluate it,
so no claim can rest on a particular `BASE` (log entry 3). -/
opaque basePage : Nat

/-- `BASE`, "a multiple of 256" (R34). -/
def base : Nat := 256 * basePage

end Sys2Proof.Config
end

