-- ==== Sys2Proof/Machine/Constants.lean ====
section
/-! DEFINITION. The constant store (spec/10_state.md R18): "a parameter of the step function that no command and no bus
access can write". -/

namespace Sys2Proof.Machine

/-- `ALPHABET`, the bytes of `YBNDRFG8EJKMCPQX0T1VW2SZA345H769` (spec/40_alphabet.md R57). -/
def alphabet : List Byte :=
  [0x59, 0x42, 0x4E, 0x44, 0x52, 0x46, 0x47, 0x38] ++ [0x45, 0x4A, 0x4B, 0x4D, 0x43, 0x50, 0x51, 0x58]
    ++ [0x30, 0x54, 0x31, 0x56, 0x57, 0x32, 0x53, 0x5A] ++ [0x41, 0x33, 0x34, 0x35, 0x48, 0x37, 0x36, 0x39]

/-- `MAX_NUMBER`, 32^7 = 2^35 (spec/42_permutation.md R69). -/
def maxNumber : Nat := 34359738368

/-- `COPRIME` (spec/00_scope.md R9; recovered in spec/42_permutation.md R71; log entry 11). -/
def coprime : Nat := 5777025351

/-- `MULINV`, the inverse of `COPRIME` modulo `MAX_NUMBER` (R9, R71; log entry 11). -/
def mulinv : Nat := 1393193079

/-- `CHK_RED`, the checksum's XOR-reduction constant (spec/00_scope.md R8). -/
def chkRed : Nat := 37

/-- `PAD_MIN`, the least digit count before the check digit (R8; spec/90_conflicts.md C4). -/
def padMin : Nat := 5

/-- `SEP_POS`, the number of symbols before the separator (R8). -/
def sepPos : Nat := 4

/-- `SEP`, the dash (R8). -/
def sep : Byte := 0x2D

/-- `DEC_MIN_LEN` (spec/00_scope.md R10). -/
def decMinLen : Nat := 6

/-- `DEC_MAX_LEN` (R10). -/
def decMaxLen : Nat := 8

/-- `IBUF_CAP`, the largest value `IBUF_LEN` stores (R10; spec/10_state.md R29). -/
def ibufCap : Nat := 64

/-- `WINDOW`, the number of bytes of register offsets (R10). -/
def windowSize : Nat := 256

end Sys2Proof.Machine
end

