-- ==== Sys2Proof/Machine/Operands.lean ====
section
/-! DEFINITION. How a command's operands are read and a word's bytes placed (spec/30_encoding.md R51, spec/20_memory.md R41). -/

namespace Sys2Proof.Machine

/-- `ARG` "is read as an unsigned 64-bit natural" (R51). -/
abbrev argNat (s : State) : Nat := s.arg.toNat

/-- The text operand, `IBUF[0 : IBUF_LEN]` (R51; log entry 16 on lengths above 64). -/
def inputText (s : State) : List Byte := s.ibuf.toList.take s.ibufLen.toNat

/-- The text `OBUF[0 : OBUF_LEN]` that a host reads back (spec/10_state.md R30). -/
def outputText (s : State) : List Byte := s.obuf.toList.take s.obufLen.toNat

/-- Byte `i` of a bus word, bits [8i+7:8i] (R37). -/
def byteOf (w : Word) (i : Nat) : Byte := w.extractLsb' (8 * i) 8

/-- Byte `i` of a buffer. -/
def bufByte (b : Vector Byte 64) (i : Nat) : Byte := b[i]?.getD 0

/-- The word of a buffer that begins at byte `k`, little-endian (R41). -/
def bufWord (b : Vector Byte 64) (k : Nat) : Word :=
  packWord (bufByte b k) (bufByte b (k + 1)) (bufByte b (k + 2)) (bufByte b (k + 3))

/-- A buffer with a word stored at byte `k`, little-endian (R41). -/
def storeWord (b : Vector Byte 64) (k : Nat) (w : Word) : Vector Byte 64 :=
  (((b.setIfInBounds k (byteOf w 0)).setIfInBounds (k + 1) (byteOf w 1)).setIfInBounds (k + 2)
    (byteOf w 2)).setIfInBounds (k + 3) (byteOf w 3)

/-- A string laid out in a 64-byte buffer, every byte past its end 0 (`setOut`, spec/10_state.md R30). -/
def zeroFilled (t : List Byte) : Vector Byte 64 :=
  ⟨((t ++ List.replicate 64 0).take 64).toArray, by simp⟩

end Sys2Proof.Machine
end

