-- ==== Sys2Proof/Machine/Ops.lean ====
section
/-! DEFINITION. The named operations over the state: every write of a field goes through one of these. The unit has no
exception entry and no return (spec/60_exceptions.md R104, R105); what it has in their place, the end of every command, is
`finish`, with `raise` and `succeed` over it (R99). -/

namespace Sys2Proof.Machine

/-- `finish(code, sym, pos)`: ends every command (R99). -/
def finish (code : ErrCode) (sym : Byte) (pos : Nat) (s : State) : State :=
  { s with
    err := errNumber code
    errSym := sym
    errPos := BitVec.ofNat 7 pos
    sticky := stickyAfter code s.sticky }

/-- `raise E(sym, pos)`: the command ends with an error (R99). -/
def raise (code : ErrCode) (sym : Byte) (pos : Nat) (s : State) : Host.Outcome State Fault Refusal :=
  .next (finish code sym pos s)

/-- `finish(NONE, 0, 0)`: the command ends with success (R99). -/
def succeed (s : State) : Host.Outcome State Fault Refusal := .next (finish .none 0 0 s)

/-- `setOut(t)`: the text and its length, zeros past it (spec/10_state.md R30). -/
def setOut (t : List Byte) (s : State) : State :=
  { s with obuf := zeroFilled t, obufLen := BitVec.ofNat 7 t.length }

/-- `RES <- zext_64(v)`. -/
def setRes (v : Nat) (s : State) : State := { s with res := BitVec.ofNat 64 v }

/-- `ACC <- d`. -/
def setAcc (d : Digit) (s : State) : State := { s with acc := d }

/-- `CMD_LAST <- w` (spec/10_state.md R24). -/
def setCmdLast (w : Word) (s : State) : State := { s with cmdLast := w }

/-- A write of `ARG_LO` "replaces bits [31:0] only" (R26). -/
def setArgLo (v : Word) (s : State) : State := { s with arg := s.arg.extractLsb' 32 32 ++ v }

/-- A write of `ARG_HI` "replaces bits [63:32] only" (R26). -/
def setArgHi (v : Word) (s : State) : State := { s with arg := v ++ s.arg.extractLsb' 0 32 }

/-- A write of `IBUF_LEN` stores `min(v, 64)` (R29). -/
def setIbufLen (v : Word) (s : State) : State := { s with ibufLen := BitVec.ofNat 7 (min v.toNat ibufCap) }

/-- A write of the `IBUF` word at byte `k` (spec/20_memory.md R37). -/
def setIbufWord (k : Nat) (v : Word) (s : State) : State := { s with ibuf := storeWord s.ibuf k v }

/-- A write of `STATUS` (spec/10_state.md R25). -/
def writeStatus (v : Word) (s : State) : State := { s with sticky := stickyAfterWrite v s.sticky }

/-- Reset of the unit (spec/70_reset_and_hazards.md R112); the host goes on with its program (log entry 6). -/
def resetUnit (s : State) : State := { State.reset with host := s.host }

/-- A change of the host's side alone. -/
def setHost (h : HostSide) (s : State) : State := { s with host := h }

end Sys2Proof.Machine
end

