-- ==== Sys2Proof/Machine/Checksum.lean ====
section
/-! DEFINITION. The checksum (spec/43_checksum.md): `csStep`, `checksum` and the commands CSUM_CLEAR, CSUM_STEP, CSUM_VERIFY. -/

namespace Sys2Proof.Machine

/-- `csStep(a, d)` (R77), on naturals and then narrowed to a digit. -/
def csStep (a d : Digit) : Digit :=
  let t := (a.toNat ^^^ d.toNat) <<< 1
  BitVec.ofNat 5 (if 32 ≤ t then t ^^^ chkRed else t)

/-- `checksum(ds) = foldl(csStep, 0, ds)` (R78). -/
def checksum (ds : List Digit) : Digit := ds.foldl csStep 0

/-- CSUM_CLEAR (R82). -/
def execCsumClear (s : State) : Host.Outcome State Fault Refusal := succeed (setAcc 0 s)

/-- CSUM_STEP (R83). -/
def execCsumStep (s : State) : Host.Outcome State Fault Refusal :=
  if 32 ≤ argNat s then raise .operandRange 0 0 s
  else succeed (setAcc (csStep s.acc (BitVec.ofNat 5 (argNat s))) s)

/-- CSUM_VERIFY (R84). -/
def execCsumVerify (s : State) : Host.Outcome State Fault Refusal :=
  if s.acc ≠ 0 then raise .checksumMismatch 0 0 s else succeed (setRes 1 s)

end Sys2Proof.Machine
end

