-- ==== Sys2Proof/Machine/Alphabet.lean ====
section
/-! DEFINITION. The alphabet family (spec/40_alphabet.md): `symbolOf`, `digitOf` and the commands SYMBOL_OF, DIGIT_OF. -/

namespace Sys2Proof.Machine

/-- `symbolOf(d)` is `ALPHABET[d]` (R59). -/
def symbolOf (d : Digit) : Byte := alphabet.getD d.toNat 0

/-- `digitOf(c)`: the digit whose symbol is `c`, or `none` (R60). -/
def digitOf (c : Byte) : Option Digit := (alphabet.findIdx? (· == c)).map (BitVec.ofNat 5)

/-- SYMBOL_OF (R61). -/
def execSymbolOf (s : State) : Host.Outcome State Fault Refusal :=
  if 32 ≤ argNat s then raise .operandRange 0 0 s
  else succeed (setRes (symbolOf (BitVec.ofNat 5 (argNat s))).toNat s)

/-- DIGIT_OF (R62): the range of `ARG` first, then the raw lookup of its byte. -/
def execDigitOf (s : State) : Host.Outcome State Fault Refusal :=
  if 256 ≤ argNat s then raise .operandRange 0 0 s
  else
    match digitOf (BitVec.ofNat 8 (argNat s)) with
    | none => raise .invalidCharacter (BitVec.ofNat 8 (argNat s)) 0 s
    | some d => succeed (setRes d.toNat s)

end Sys2Proof.Machine
end

