-- ==== Sys2Proof/Machine/Normalizer.lean ====
section
/-! DEFINITION. The normalizer (spec/41_normalizer.md): `upcase`, `subst`, `normChars`, `firstBad` and the command NORMALIZE. -/

namespace Sys2Proof.Machine

/-- `upcase(c)`: ASCII `a` to `z` only (R64). -/
def upcase (c : Byte) : Byte := if 0x61 ≤ c.toNat ∧ c.toNat ≤ 0x7A then c - 0x20 else c

/-- `subst(c)`: `I` and `L` become `1`, `O` becomes `0` (R65). -/
def subst (c : Byte) : Byte :=
  if c = 0x49 ∨ c = 0x4C then 0x31 else if c = 0x4F then 0x30 else c

/-- `normChars(s)`: upcase, drop every dash, substitute (R66). -/
def normChars (s : List Byte) : List Byte := ((s.map upcase).filter (fun c => c != 0x2D)).map subst

/-- `firstBad(t)`: the least index of a byte that is no symbol (R67). -/
def firstBad (t : List Byte) : Option Nat := t.findIdx? fun c => (digitOf c).isNone

/-- NORMALIZE (R68): the normalized text goes to `OBUF` whether or not it is valid (R100). -/
def execNormalize (s : State) : Host.Outcome State Fault Refusal :=
  let t := normChars (inputText s)
  match firstBad t with
  | some i => raise .invalidCharacter (t.getD i 0) i (setOut t s)
  | none => succeed (setOut t s)

end Sys2Proof.Machine
end

