-- ==== Sys2Proof/Machine/Permutation.lean ====
section
/-! DEFINITION. The permutation (spec/42_permutation.md): `mask`, `unmask` and the commands MASK, UNMASK. -/

namespace Sys2Proof.Machine

/-- `mask(n) = (n * COPRIME) mod 2^35`, the product exact (R72). The constant is written first in the product: Lean's
kernel, where it unfolds a product at all, takes its second factor apart. -/
def mask (n : Nat) : Nat := coprime * n % maxNumber

/-- `unmask(h) = (h * MULINV) mod 2^35` (R73), written as `mask` is. -/
def unmask (h : Nat) : Nat := mulinv * h % maxNumber

/-- MASK (R75): total on 64-bit operands. -/
def execMask (s : State) : Host.Outcome State Fault Refusal := succeed (setRes (mask (argNat s)) s)

/-- UNMASK (R76): total on 64-bit operands. -/
def execUnmask (s : State) : Host.Outcome State Fault Refusal := succeed (setRes (unmask (argNat s)) s)

end Sys2Proof.Machine
end

