-- ==== Sys2Proof/Machine/Codec.lean ====
section
/-! DEFINITION. The codec (spec/44_codec.md): base-32 conversion, `render`, `encodeCode` and the commands ENCODE, DECODE. -/

namespace Sys2Proof.Machine

/-- The loop of `toDigits` (R85), run at most `fuel` times: each round takes the last digit off `h`. -/
def toDigitsLoop : Nat → Nat → List Digit → List Digit
  | 0, _, ds => ds
  | fuel + 1, h, ds => if h = 0 then ds else toDigitsLoop fuel (h / 32) (BitVec.ofNat 5 (h % 32) :: ds)

/-- `toDigits(h)`: base 32, most-significant first, no leading zero (R85). A number has no more base-32 digits than it
has bits, so the loop never stops early. -/
def toDigits (h : Nat) : List Digit := toDigitsLoop (h.log2 + 1) h []

/-- `padDigits(ds)`: zeros in front up to `PAD_MIN` digits (R86). -/
def padDigits (ds : List Digit) : List Digit := List.replicate (padMin - ds.length) 0 ++ ds

/-- `fromDigits(ds) = foldl((v, d) -> v * 32 + d, 0, ds)` (R87). -/
def fromDigits (ds : List Digit) : Nat := ds.foldl (fun v d => v * 32 + d.toNat) 0

/-- `render(ds)`: the symbols, with the separator after the fourth (R88). -/
def render (ds : List Digit) : List Byte :=
  let s := ds.map symbolOf
  s.take sepPos ++ [sep] ++ s.drop sepPos

/-- The padded digits of a masked value, before the check digit (R89). -/
def bodyDigits (n : Nat) : List Digit := padDigits (toDigits (mask n))

/-- `encodeCode(n)` (R89): the check digit is computed over the padded digits. -/
def encodeCode (n : Nat) : List Byte := render (bodyDigits n ++ [checksum (bodyDigits n)])

/-- ENCODE (R91). -/
def execEncode (s : State) : Host.Outcome State Fault Refusal :=
  if argNat s = 0 ∨ maxNumber ≤ argNat s then raise .outOfRange 0 0 s
  else succeed (setOut (encodeCode (argNat s)) s)

/-- DECODE (R92): the checks in the order of spec/60_exceptions.md R102. Where `firstBad` finds nothing every byte is a
symbol, so `filterMap digitOf` is the rule's `map(digitOf, t)` (log entry 12). R14 names a pure function `decodeCode`, which
spec/44_codec.md does not define: the model has none, and R92's steps stand here (log entry 21, DESIGN CHOICE). -/
def execDecode (s : State) : Host.Outcome State Fault Refusal :=
  let t := normChars (inputText s)
  let s1 := setOut t s
  match firstBad t with
  | some i => raise .invalidCharacter (t.getD i 0) i s1
  | none =>
    if t.length < decMinLen ∨ decMaxLen < t.length then raise .lengthError 0 t.length s1
    else
      let ds := t.filterMap digitOf
      if checksum ds ≠ 0 then raise .checksumMismatch (t.getD (t.length - 1) 0) (t.length - 1) s1
      else succeed (setRes (unmask (fromDigits ds.dropLast)) s1)

end Sys2Proof.Machine
end

