-- ==== Sys2Proof/Machine/Control.lean ====
section
/-! DEFINITION. The control family (spec/45_control.md): NOP. -/

namespace Sys2Proof.Machine

/-- NOP (R95): "do nothing except report success". -/
def execNop (s : State) : Host.Outcome State Fault Refusal := succeed s

end Sys2Proof.Machine
end

