-- ==== Sys2Proof/Machine/Dispatch.lean ====
section
/-! DEFINITION. One arm per command (spec/30_encoding.md R49). -/

namespace Sys2Proof.Machine

/-- Run a decoded command. -/
def exec (i : Instr) (s : State) : Host.Outcome State Fault Refusal :=
  match i with
  | .nop => Sys2Proof.Machine.execNop s
  | .symbolOf => Sys2Proof.Machine.execSymbolOf s
  | .digitOf => Sys2Proof.Machine.execDigitOf s
  | .normalize => Sys2Proof.Machine.execNormalize s
  | .mask => Sys2Proof.Machine.execMask s
  | .unmask => Sys2Proof.Machine.execUnmask s
  | .csumClear => Sys2Proof.Machine.execCsumClear s
  | .csumStep => Sys2Proof.Machine.execCsumStep s
  | .csumVerify => Sys2Proof.Machine.execCsumVerify s
  | .encode => Sys2Proof.Machine.execEncode s
  | .decode => Sys2Proof.Machine.execDecode s

end Sys2Proof.Machine
end

