-- ==== Sys2Proof/Machine/Bus.lean ====
section
/-! DEFINITION. The register window (spec/20_memory.md): which accesses are admitted, what a read returns and what a write
does, the execution of a command word among it (spec/30_encoding.md R49). -/

namespace Sys2Proof.Machine

/-- `execute(w)`: an illegal word takes ILLEGAL_COMMAND (R49, R53; spec/60_exceptions.md R101). -/
def execute (w : Word) (s : State) : Host.Outcome State Fault Refusal :=
  match decode w with
  | .ok i => exec i s
  | .error _ => raise .illegalCommand 0 0 s

/-- The offset of an admitted access (R37), or the refusal of any other (R38; log entry 4). -/
def admittedOffset (off : Int) (size : Nat) : Except Refusal Nat :=
  if size ≠ 4 then .error .accessNotFourBytes
  else if off < 0 ∨ (windowSize : Int) ≤ off then .error .accessOutsideWindow
  else if off.toNat % 4 ≠ 0 then .error .accessMisaligned
  else .ok off.toNat

/-- `busRead(off)` (R37). -/
def busRead (off : Nat) (s : State) : Word :=
  if off = 0x00 then s.cmdLast
  else if off = 0x04 then statusWord s
  else if off = 0x08 then s.arg.extractLsb' 0 32
  else if off = 0x0C then s.arg.extractLsb' 32 32
  else if off = 0x10 then s.res.extractLsb' 0 32
  else if off = 0x14 then s.res.extractLsb' 32 32
  else if off = 0x18 then s.acc.setWidth 32
  else if off = 0x1C then s.ibufLen.setWidth 32
  else if off = 0x20 then s.obufLen.setWidth 32
  else if off = 0x24 then errInfoWord s
  else if 0x40 ≤ off ∧ off ≤ 0x7C then bufWord s.ibuf (off - 0x40)
  else if 0x80 ≤ off ∧ off ≤ 0xBC then bufWord s.obuf (off - 0x80)
  else 0

/-- `busWrite(off, v)` (R37). A write of CMD first stores the word, then performs the command (spec/10_state.md R24). -/
def busWrite (off : Nat) (v : Word) (s : State) : Host.Outcome State Fault Refusal :=
  if off = 0x00 then execute v (setCmdLast v s)
  else if off = 0x04 then .next (writeStatus v s)
  else if off = 0x08 then .next (setArgLo v s)
  else if off = 0x0C then .next (setArgHi v s)
  else if off = 0x1C then .next (setIbufLen v s)
  else if 0x40 ≤ off ∧ off ≤ 0x7C then .next (setIbufWord (off - 0x40) v s)
  else .next s

/-- The platform's view of `MemWrite(addr, size, v)`: the window begins at `BASE` (R34, R37). -/
def memWrite (addr size : Nat) (v : Word) (s : State) : Host.Outcome State Fault Refusal :=
  match admittedOffset ((addr : Int) - Config.base) size with
  | .ok off => busWrite off v s
  | .error r => .refused r

/-- The platform's view of `MemRead(addr, size)`: a value, or the refusal of the access. -/
def memRead (addr size : Nat) (s : State) : Except Refusal Word :=
  match admittedOffset ((addr : Int) - Config.base) size with
  | .ok off => .ok (busRead off s)
  | .error r => .error r

end Sys2Proof.Machine
end

