-- ==== Sys2Proof/Machine/HostScript.lean ====
section
/-! DEFINITION. The host's moves: making one transaction (spec/20_memory.md R37) and running one line of its script
(spec/30_encoding.md R55, R56). The unit "has no step of its own" (spec/70_reset_and_hazards.md R114): it changes only in a
transaction. -/

namespace Sys2Proof.Machine

/-- The value a script write puts on the bus (R55). -/
def srcValue (src : Src) (s : State) : Word :=
  match src with
  | .imm v => v
  | .scratch => s.host.scratch

/-- `t <- v` (R55). -/
def setScratch (v : Word) (s : State) : State := setHost { s.host with scratch := v } s

/-- The transactions still to be made. -/
def setPending (l : List Transaction) (s : State) : State := setHost { s.host with pending := l } s

/-- The next line of the script. -/
def setLine (n : Nat) (s : State) : State := setHost { s.host with line := n } s

/-- `halt` (R56). -/
def setHalted (s : State) : State := setHost { s.host with halted := true } s

/-- Make one transaction: at most one access, which completes before the next begins (R44). -/
def transact (x : Transaction) (s : State) : Host.Outcome State Fault Refusal :=
  match x with
  | .write off size src =>
    match admittedOffset off size with
    | .ok o => busWrite o (srcValue src s) s
    | .error r => .refused r
  | .read off size =>
    match admittedOffset off size with
    | .ok o => .next (setScratch (busRead o s) s)
    | .error r => .refused r
  | .readText =>
    let v := busRead (offsetOf .obufLen) s
    .next (setPending (textReads v.toNat ++ s.host.pending) (setScratch v s))
  | .reset => .next (resetUnit s)

/-- Run one line: a host-only line changes the host alone; any other makes the first of its transactions and leaves the
rest pending (R56). -/
def runLine (l : Line) (s : State) : Host.Outcome State Fault Refusal :=
  match l with
  | .beq imm label => .next (if s.host.scratch = imm then setLine label s else s)
  | .bne imm label => .next (if s.host.scratch = imm then s else setLine label s)
  | .andi imm => .next (setScratch (s.host.scratch &&& imm) s)
  | .halt => .next (setHalted s)
  | l =>
    match expand l with
    | some (x :: rest) => transact x (setPending rest s)
    | _ => .refused .noExpansion

/-- The host's next move: what is pending first, then the script's next line; with neither there is no step (R118). -/
def hostStep (s : State) : Host.Outcome State Fault Refusal :=
  match s.host.pending with
  | x :: rest => transact x (setPending rest s)
  | [] =>
    if s.host.halted then .refused .hostHalted
    else
      match s.host.script[s.host.line]? with
      | some l => runLine l (setLine (s.host.line + 1) s)
      | none => .refused .noHostAccess

end Sys2Proof.Machine
end

