-- ==== Sys2Proof/Machine/Step.lean ====
section
/-! DEFINITION. One step of the machine: the host's next move with all it starts in the unit (spec/20_memory.md R39, R44;
spec/70_reset_and_hazards.md R114). -/

namespace Sys2Proof.Machine

/-- One step. -/
def step (s : State) : Host.Outcome State Fault Refusal := hostStep s

/-- `s` with a command word where the next step takes its command from: at the head of the host's pending transactions, as
a 32-bit write of the word to CMD (log entry 1). -/
def State.withFetchWord (s : State) (nbits w : Nat) : State :=
  setPending (writeReg .cmd (.imm (BitVec.ofNat 32 (w % 2 ^ nbits))) :: s.host.pending) s

end Sys2Proof.Machine
end

