-- ==== Sys2Proof/Safety.lean ====
section
/-! DEFINITION. The terms claims are stated in: the invariant of spec/10_state.md R33, what a command may change, what it
reports, and the spec's pure functions written a second time, on plain naturals and straight from the spec's tables, so
that a claim compares two texts and does not repeat the model's. -/

namespace Sys2Proof.Safety

open Sys2Proof.Machine

/-- The invariants "a model may rely on" (R33). `ACC < 32` holds by its width. -/
abbrev Inv (s : State) : Prop :=
  s.ibufLen.toNat ≤ 64 ∧ s.obufLen.toNat ≤ 64 ∧ (∀ i : Fin 64, s.obufLen.toNat ≤ i.val → s.obuf[i.val] = 0) ∧
    s.err.toNat ≤ 6 ∧ s.errPos.toNat ≤ 64 ∧ s.res.toNat < 2 ^ 35

/-- The status fields of `t` are those a command that started in `s` leaves with `finish(code, sym, pos)` (R99). -/
def Reports (s t : State) (code sym pos : Nat) : Prop :=
  t.err.toNat = code ∧ t.errSym.toNat = sym ∧ t.errPos.toNat = pos ∧ t.sticky = (s.sticky || decide (code ≠ 0))

/-- From `s` to `t` only the status fields may change. -/
def OnlyStatus (s t : State) : Prop :=
  t = { s with err := t.err, errSym := t.errSym, errPos := t.errPos, sticky := t.sticky }

/-- From `s` to `t` only `RES` and the status fields may change. -/
def OnlyRes (s t : State) : Prop :=
  t = { s with res := t.res, err := t.err, errSym := t.errSym, errPos := t.errPos, sticky := t.sticky }

/-- From `s` to `t` only `ACC` and the status fields may change. -/
def OnlyAcc (s t : State) : Prop :=
  t = { s with acc := t.acc, err := t.err, errSym := t.errSym, errPos := t.errPos, sticky := t.sticky }

/-- From `s` to `t` only `OBUF`, `OBUF_LEN` and the status fields may change. -/
def OnlyOut (s t : State) : Prop :=
  t = { s with
    obuf := t.obuf, obufLen := t.obufLen, err := t.err, errSym := t.errSym, errPos := t.errPos, sticky := t.sticky }

/-- From `s` to `t` only `RES`, `OBUF`, `OBUF_LEN` and the status fields may change. -/
def OnlyResOut (s t : State) : Prop :=
  t = { s with
    res := t.res, obuf := t.obuf, obufLen := t.obufLen,
    err := t.err, errSym := t.errSym, errPos := t.errPos, sticky := t.sticky }

/-- From `s` to `t` no field of the unit changes. -/
def OnlyHost (s t : State) : Prop := t = { s with host := t.host }

/-- `OBUF` and `OBUF_LEN` hold exactly the bytes `codes`, with zeros past them (R30). -/
def OutIs (t : State) (codes : List Nat) : Prop :=
  t.obufLen.toNat = codes.length ∧ ∀ i : Fin 64, t.obuf[i.val].toNat = codes.getD i.val 0

/-- The input text, `IBUF[0 : IBUF_LEN]` (R29). -/
def text (s : State) : List Byte := s.ibuf.toList.take s.ibufLen.toNat

/-- The alphabet in characters (R57). -/
def symbolCodes : List Nat :=
  (['Y', 'B', 'N', 'D', 'R', 'F', 'G', '8', 'E', 'J', 'K', 'M', 'C', 'P', 'Q', 'X'] ++
    ['0', 'T', '1', 'V', 'W', '2', 'S', 'Z', 'A', '3', '4', '5', 'H', '7', '6', '9']).map Char.toNat

/-- The symbol of a digit below 32. -/
def symbolCode (d : Nat) : Nat := symbolCodes.getD d 0

/-- A byte that is a symbol (R58). -/
def IsSymbol (c : Byte) : Prop := c.toNat ∈ symbolCodes

/-- What the normalizer makes of one byte (R63 to R65): nothing of a dash; `1` of I, L, i, l; `0` of O, o; the upper-case
letter of any other lower-case letter; any other byte itself. -/
def normalByte (c : Byte) : Option Byte :=
  if c.toNat = '-'.toNat then none
  else if c.toNat ∈ ['I', 'L', 'i', 'l'].map Char.toNat then some (BitVec.ofNat 8 '1'.toNat)
  else if c.toNat ∈ ['O', 'o'].map Char.toNat then some (BitVec.ofNat 8 '0'.toNat)
  else if 'a'.toNat ≤ c.toNat ∧ c.toNat ≤ 'z'.toNat then some (BitVec.ofNat 8 (c.toNat - 32))
  else some c

/-- The normalized text: the bytes in order, each by itself. -/
def normalText (s : State) : List Byte := (text s).filterMap normalByte

/-- One checksum step in arithmetic (R77). -/
def stepNat (a d : Nat) : Nat := if 32 ≤ 2 * (a ^^^ d) then 2 * (a ^^^ d) ^^^ 37 else 2 * (a ^^^ d)

/-- The checksum of a digit sequence (R78). -/
def checkNat (ds : List Nat) : Nat := ds.foldl stepNat 0

/-- The value of a digit sequence (R87). -/
def valueNat (ds : List Nat) : Nat := ds.foldl (fun v d => 32 * v + d) 0

/-- How many digits a masked value below 32^7 has in a code, the check digit left out (the table of R90). -/
def bodyLength (h : Nat) : Nat := if h < 32 ^ 5 then 5 else if h < 32 ^ 6 then 6 else 7

/-- The digits of a masked value in a code, most significant first, by position. -/
def bodyNat (h : Nat) : List Nat := (List.range (bodyLength h)).map fun j => h / 32 ^ (bodyLength h - 1 - j) % 32

/-- The bytes of the code of a masked value: its digits and their check digit as symbols, a dash after the fourth. -/
def codeBytes (h : Nat) : List Nat :=
  let symbols := (bodyNat h ++ [checkNat (bodyNat h)]).map symbolCode
  symbols.take 4 ++ ['-'.toNat] ++ symbols.drop 4

/-- What a read of an admitted offset returns, in arithmetic (the table of R37). -/
def readNat (off : Nat) (s : State) : Nat :=
  if off = 0x00 then s.cmdLast.toNat
  else if off = 0x04 then s.err.toNat + s.sticky.toNat * 2 ^ 8
  else if off = 0x08 then s.arg.toNat % 2 ^ 32
  else if off = 0x0C then s.arg.toNat / 2 ^ 32
  else if off = 0x10 then s.res.toNat % 2 ^ 32
  else if off = 0x14 then s.res.toNat / 2 ^ 32
  else if off = 0x18 then s.acc.toNat
  else if off = 0x1C then s.ibufLen.toNat
  else if off = 0x20 then s.obufLen.toNat
  else if off = 0x24 then s.errSym.toNat + s.errPos.toNat * 2 ^ 8
  else if 0x40 ≤ off ∧ off < 0x80 then
    ((List.range 4).map fun i => 2 ^ (8 * i) * (s.ibuf.toList.getD (off - 0x40 + i) 0).toNat).sum
  else if 0x80 ≤ off ∧ off < 0xC0 then
    ((List.range 4).map fun i => 2 ^ (8 * i) * (s.obuf.toList.getD (off - 0x80 + i) 0).toNat).sum
  else 0

/-- The shape of an access the unit admits (R37). -/
def Admitted (off : Int) (size : Nat) : Prop := size = 4 ∧ off % 4 = 0 ∧ 0 ≤ off ∧ off < 0x100

/-- The transaction the next step makes, if it makes one: what is pending, or the first of the next script line's (R56). -/
def made (s : State) : Option Transaction :=
  match s.host.pending with
  | x :: _ => some x
  | [] =>
    if s.host.halted then none
    else ((s.host.script[s.host.line]?).bind expand).bind List.head?

/-- The host with its next script line taken. -/
def lineTaken (s : State) : HostSide := { s.host with line := s.host.line + 1 }

/-- `s` is about to run script line `l`. -/
def AtLine (s : State) (l : Line) : Prop :=
  s.host.pending = [] ∧ s.host.halted = false ∧ s.host.script[s.host.line]? = some l

/-- `s` is about to make transaction `x`, with `rest` to follow. -/
def AtAccess (s : State) (x : Transaction) (rest : List Transaction) : Prop := s.host.pending = x :: rest

/-- `s` with its pending transactions replaced. -/
def withRest (rest : List Transaction) (s : State) : State := { s with host := { s.host with pending := rest } }

end Sys2Proof.Safety
end

