-- ==== Sys2Proof/Certificates/Slice0/Obligations.lean ====
section
/-! DEFINITION. The statements for the provers, each a rule of spec/ or what follows from the rules. -/

open Sys2Proof Sys2Proof.Machine Sys2Proof.Safety

/-! ## Command words -/

/-- spec/30_encoding.md section 2 and spec/95_test_vectors.md V-CTL, V-BUS row 9: the eleven words of the opcode map, and
six words that are no command. -/
def Obligations.OpcodeMapWordsDecode : Prop :=
  decode 0x00000000 = .ok .nop ∧ decode 0x00000001 = .ok .symbolOf ∧ decode 0x00000002 = .ok .digitOf ∧
  decode 0x00000003 = .ok .normalize ∧ decode 0x00000004 = .ok .mask ∧ decode 0x00000005 = .ok .unmask ∧
  decode 0x00000006 = .ok .csumClear ∧ decode 0x00000007 = .ok .csumStep ∧ decode 0x00000008 = .ok .csumVerify ∧
  decode 0x00000009 = .ok .encode ∧ decode 0x0000000A = .ok .decode ∧
  decode 0x0000000B = .error .reservedOpcode ∧ decode 0x000000FF = .error .reservedOpcode ∧
  decode 0x00000100 = .error .mbzNotZero ∧ decode 0x80000009 = .error .mbzNotZero ∧
  decode 0x00000109 = .error .mbzNotZero ∧ decode 0x12345601 = .error .mbzNotZero

/-- R52 over all words: every command decodes from its own encoding, and each command is selected by exactly the one word
the map gives it, whatever the other 2^32 - 1 words are. -/
def Obligations.CommandWordsAndCommandsAgree : Prop :=
  (∀ i : Instr, i.WellFormed = true → decode (encode i) = .ok i) ∧
  ∀ w : Word,
    (decode w = .ok .nop ↔ w = 0x00) ∧ (decode w = .ok .symbolOf ↔ w = 0x01) ∧ (decode w = .ok .digitOf ↔ w = 0x02) ∧
    (decode w = .ok .normalize ↔ w = 0x03) ∧ (decode w = .ok .mask ↔ w = 0x04) ∧ (decode w = .ok .unmask ↔ w = 0x05) ∧
    (decode w = .ok .csumClear ↔ w = 0x06) ∧ (decode w = .ok .csumStep ↔ w = 0x07) ∧
    (decode w = .ok .csumVerify ↔ w = 0x08) ∧ (decode w = .ok .encode ↔ w = 0x09) ∧ (decode w = .ok .decode ↔ w = 0x0A)

/-- R101 with the illegal words of R53 spelled out: non-zero bits [31:8], or an opcode of 0x0B or more. The step of such a
write of CMD, of a word given outright or of `t`, writes CMD_LAST, reports ILLEGAL_COMMAND (6) with an empty payload, and
nothing else of the unit changes. -/
def Obligations.IllegalWordOnlyReports : Prop :=
  ∀ (s : State) (src : Src) (rest : List Transaction), AtAccess s (.write 0x00 4 src) rest →
    ((srcValue src s).toNat / 2 ^ 8 ≠ 0 ∨ 0x0B ≤ (srcValue src s).toNat % 2 ^ 8) →
    ∃ t, step s = .next t ∧ OnlyStatus { withRest rest s with cmdLast := srcValue src s } t ∧ Reports s t 6 0 0

/-- spec/30_encoding.md section 1, spec/10_state.md R24, spec/70_reset_and_hazards.md section 2: a step that writes CMD with
a command's word is that command, run after CMD_LAST has been set and the transaction used up. The word is given outright or,
as spec/30_encoding.md section 3 (R55) has it, is the scratch value or comes from the script line `cmd`. The model's own
choice: a step is one move of the host held in State, so one script line of one access is one step (log entry 1, DESIGN
CHOICE), and `withFetchWord` places the word of the last clause (log entries 1 and 20, DESIGN CHOICE). -/
def Obligations.StepRunsTheDecodedCommand : Prop :=
  ∀ (s : State) (w : Word) (i : Instr) (rest : List Transaction), decode w = .ok i →
    (AtAccess s (.write 0x00 4 (.imm w)) rest → step s = exec i { withRest rest s with cmdLast := w }) ∧
    (AtAccess s (.write 0x00 4 .scratch) rest → s.host.scratch = w →
      step s = exec i { withRest rest s with cmdLast := w }) ∧
    (AtLine s (.cmd i) → step s = exec i { s with cmdLast := w, host := lineTaken s }) ∧
    step (s.withFetchWord 32 w.toNat) = exec i { s with cmdLast := w }

/-! ## The commands, one by one -/

/-- R95: NOP has the word 0, reports success and changes nothing else; STICKY keeps its value. -/
def Obligations.NopOnlyReportsSuccess : Prop :=
  encode .nop = 0x00000000 ∧
  ∀ s : State, ∃ t, exec .nop s = .next t ∧ OnlyStatus s t ∧ Reports s t 0 0 0 ∧ t.sticky = s.sticky

/-- R61: SYMBOL_OF, below 32 and from 32 on, with the symbols of R57 as characters. -/
def Obligations.SymbolOfGivesTheSymbol : Prop :=
  encode .symbolOf = 0x00000001 ∧
  ∀ s : State,
    (s.arg.toNat < 32 →
      ∃ t, exec .symbolOf s = .next t ∧ OnlyRes s t ∧ t.res.toNat = symbolCode s.arg.toNat ∧ Reports s t 0 0 0) ∧
    (32 ≤ s.arg.toNat → ∃ t, exec .symbolOf s = .next t ∧ OnlyStatus s t ∧ Reports s t 5 0 0)

/-- R62: DIGIT_OF of a symbol's byte, of a byte that is no symbol, and of an operand of 256 or more. -/
def Obligations.DigitOfGivesTheDigit : Prop :=
  encode .digitOf = 0x00000002 ∧
  ∀ s : State,
    (∀ d < 32, s.arg.toNat = symbolCode d →
      ∃ t, exec .digitOf s = .next t ∧ OnlyRes s t ∧ t.res.toNat = d ∧ Reports s t 0 0 0) ∧
    (s.arg.toNat < 256 → s.arg.toNat ∉ symbolCodes →
      ∃ t, exec .digitOf s = .next t ∧ OnlyStatus s t ∧ Reports s t 2 s.arg.toNat 0) ∧
    (256 ≤ s.arg.toNat → ∃ t, exec .digitOf s = .next t ∧ OnlyStatus s t ∧ Reports s t 5 0 0)

/-- R68: NORMALIZE leaves the normalized text in OBUF, each byte normalized by itself, and reports success when every byte
of it is a symbol, else the first that is not, with its index. -/
def Obligations.NormalizeWritesTheNormalizedText : Prop :=
  encode .normalize = 0x00000003 ∧
  ∀ s : State,
    ((∀ c ∈ normalText s, IsSymbol c) →
      ∃ t, exec .normalize s = .next t ∧ OnlyOut s t ∧ OutIs t ((normalText s).map (·.toNat)) ∧ Reports s t 0 0 0) ∧
    (∀ before c after, normalText s = before ++ c :: after → (∀ b ∈ before, IsSymbol b) → ¬ IsSymbol c →
      ∃ t, exec .normalize s = .next t ∧ OnlyOut s t ∧ OutIs t ((normalText s).map (·.toNat)) ∧
        Reports s t 2 c.toNat before.length)

/-- spec/42_permutation.md section 3, MASK, on every 64-bit operand. The number 5777025351 for COPRIME is the spec's own
inference from the source's examples (R71, "recovers the values from the source's own examples"; log entry 11). -/
def Obligations.MaskMultipliesByCoprime : Prop :=
  encode .mask = 0x00000004 ∧
  ∀ s : State, ∃ t, exec .mask s = .next t ∧ OnlyRes s t ∧ t.res.toNat = 5777025351 * s.arg.toNat % 2 ^ 35 ∧
    Reports s t 0 0 0

/-- spec/42_permutation.md section 3, UNMASK, on every 64-bit operand. The number 1393193079 for MULINV is the spec's own
inference (R71; log entry 11). -/
def Obligations.UnmaskMultipliesByTheInverse : Prop :=
  encode .unmask = 0x00000005 ∧
  ∀ s : State, ∃ t, exec .unmask s = .next t ∧ OnlyRes s t ∧ t.res.toNat = 1393193079 * s.arg.toNat % 2 ^ 35 ∧
    Reports s t 0 0 0

/-- R82: CSUM_CLEAR. -/
def Obligations.CsumClearZeroesTheAccumulator : Prop :=
  encode .csumClear = 0x00000006 ∧
  ∀ s : State, ∃ t, exec .csumClear s = .next t ∧ OnlyAcc s t ∧ t.acc.toNat = 0 ∧ Reports s t 0 0 0

/-- R83: CSUM_STEP, with the step of R77 in arithmetic. -/
def Obligations.CsumStepFoldsOneDigit : Prop :=
  encode .csumStep = 0x00000007 ∧
  ∀ s : State,
    (s.arg.toNat < 32 →
      ∃ t, exec .csumStep s = .next t ∧ OnlyAcc s t ∧ t.acc.toNat = stepNat s.acc.toNat s.arg.toNat ∧
        Reports s t 0 0 0) ∧
    (32 ≤ s.arg.toNat → ∃ t, exec .csumStep s = .next t ∧ OnlyStatus s t ∧ Reports s t 5 0 0)

/-- R84: CSUM_VERIFY. -/
def Obligations.CsumVerifyTestsTheAccumulator : Prop :=
  encode .csumVerify = 0x00000008 ∧
  ∀ s : State,
    (s.acc.toNat = 0 →
      ∃ t, exec .csumVerify s = .next t ∧ OnlyRes s t ∧ t.res.toNat = 1 ∧ Reports s t 0 0 0) ∧
    (s.acc.toNat ≠ 0 → ∃ t, exec .csumVerify s = .next t ∧ OnlyStatus s t ∧ Reports s t 3 0 0)

/-- spec/44_codec.md section 2, ENCODE: in range it leaves the code of the masked value, given here by positions (digit j of
the masked value is its quotient by a power of 32, modulo 32), out of range it reports OUT_OF_RANGE and OBUF keeps its text.
COPRIME's number is the spec's own inference (R71; log entry 11). -/
def Obligations.EncodeWritesTheCode : Prop :=
  encode .encode = 0x00000009 ∧
  ∀ s : State,
    (1 ≤ s.arg.toNat → s.arg.toNat < 2 ^ 35 →
      ∃ t, exec .encode s = .next t ∧ OnlyOut s t ∧ OutIs t (codeBytes (5777025351 * s.arg.toNat % 2 ^ 35)) ∧
        Reports s t 0 0 0) ∧
    ((s.arg.toNat = 0 ∨ 2 ^ 35 ≤ s.arg.toNat) →
      ∃ t, exec .encode s = .next t ∧ OnlyStatus s t ∧ Reports s t 1 0 0)

/-- spec/44_codec.md section 2, DECODE of a valid text: 6 to 8 symbols with checksum 0, given as the digits they stand for.
RES is the unmasked value of all digits but the last. MULINV's number is the spec's own inference (R71; log entry 11). -/
def Obligations.DecodeGivesTheCodedNumber : Prop :=
  encode .decode = 0x0000000A ∧
  ∀ (s : State) (ds : List Nat) (c : Nat), (∀ d ∈ ds ++ [c], d < 32) →
    (normalText s).map (·.toNat) = (ds ++ [c]).map symbolCode → 6 ≤ (ds ++ [c]).length → (ds ++ [c]).length ≤ 8 →
    checkNat (ds ++ [c]) = 0 →
    ∃ t, exec .decode s = .next t ∧ OnlyResOut s t ∧ OutIs t ((ds ++ [c]).map symbolCode) ∧
      t.res.toNat = 1393193079 * valueNat ds % 2 ^ 35 ∧ Reports s t 0 0 0

/-- spec/44_codec.md section 2 and spec/60_exceptions.md section 2, the failures of DECODE in the order of its checks: the
first byte that is no symbol, whatever the length; a wrong length, whatever the checksum; a checksum that is not 0. On each,
OBUF holds the normalized text and RES is kept. -/
def Obligations.DecodeReportsTheFirstFailedCheck : Prop :=
  ∀ s : State,
    (∀ before c after, normalText s = before ++ c :: after → (∀ b ∈ before, IsSymbol b) → ¬ IsSymbol c →
      ∃ t, exec .decode s = .next t ∧ OnlyOut s t ∧ OutIs t ((normalText s).map (·.toNat)) ∧
        Reports s t 2 c.toNat before.length) ∧
    ((∀ c ∈ normalText s, IsSymbol c) → ((normalText s).length < 6 ∨ 8 < (normalText s).length) →
      ∃ t, exec .decode s = .next t ∧ OnlyOut s t ∧ OutIs t ((normalText s).map (·.toNat)) ∧
        Reports s t 4 0 (normalText s).length) ∧
    (∀ (ds : List Nat) (c : Nat), (∀ d ∈ ds ++ [c], d < 32) →
      (normalText s).map (·.toNat) = (ds ++ [c]).map symbolCode → 6 ≤ (ds ++ [c]).length → (ds ++ [c]).length ≤ 8 →
      checkNat (ds ++ [c]) ≠ 0 →
      ∃ t, exec .decode s = .next t ∧ OnlyOut s t ∧ OutIs t ((ds ++ [c]).map symbolCode) ∧
        Reports s t 3 (symbolCode c) ds.length)

/-! ## Rules over all commands -/

/-- R22: every command ends with a code in ERR, whatever ERR held before, sets STICKY when that code is not NONE and never clears it; a step clears
STICKY only by a reset or by a write of STATUS with bit 8 set; no other flag exists. -/
def Obligations.StickyIsSetByFailureAndClearedByHostOrReset : Prop :=
  (∀ (i : Instr) (s : State), ∃ t, exec i s = .next t ∧ t.err.toNat ≤ 6 ∧
    t.sticky = (s.sticky || decide (t.err.toNat ≠ 0)) ∧ ∀ e, exec i { s with err := e } = .next t) ∧
  ∀ s t : State, step s = .next t → s.sticky = true → t.sticky = false →
    made s = some .reset ∨ ∃ src, made s = some (.write 0x04 4 src) ∧ (srcValue src s).getLsbD 8 = true

/-- spec/60_exceptions.md section 1, the registers a command leaves alone: none writes CMD_LAST, ARG, IBUF, IBUF_LEN or the
host's side; only CSUM_CLEAR and CSUM_STEP write ACC; only six commands write RES and only three OBUF; and one that fails keeps
RES and ACC, and OBUF too unless it is NORMALIZE or DECODE. -/
def Obligations.CommandsKeepTheOtherRegisters : Prop :=
  ∀ (i : Instr) (s t : State), exec i s = .next t →
    t.cmdLast = s.cmdLast ∧ t.arg = s.arg ∧ t.ibuf = s.ibuf ∧ t.ibufLen = s.ibufLen ∧ t.host = s.host ∧
    (i ≠ .csumClear → i ≠ .csumStep → t.acc = s.acc) ∧
    (i ∉ [Instr.symbolOf, .digitOf, .mask, .unmask, .csumVerify, .decode] → t.res = s.res) ∧
    (i ∉ [Instr.encode, .normalize, .decode] → t.obuf = s.obuf ∧ t.obufLen = s.obufLen) ∧
    (t.err ≠ 0 → t.res = s.res ∧ t.acc = s.acc ∧
      (i ≠ .normalize → i ≠ .decode → t.obuf = s.obuf ∧ t.obufLen = s.obufLen))

/-- A command's results depend on nothing but its operands: for ENCODE and DECODE spec/10_state.md section 1 (R19, an
inference the spec marks as its own) and the opening of spec/44_codec.md, for NORMALIZE spec/30_encoding.md section 1 (R50,
the registers it reads) and spec/41_normalizer.md section 2 (R68). ENCODE in two states with one ARG, NORMALIZE and DECODE in
two states with one input text leave the same output and the same report, whatever ACC, RES, ERR, the bytes past the text and
the rest of the states hold. -/
def Obligations.CodecResultsDependOnOperandsOnly : Prop :=
  ∀ (i : Instr) (s s' t t' : State), exec i s = .next t → exec i s' = .next t' →
    (i = .encode ∧ s.arg = s'.arg ∨ (i = .normalize ∨ i = .decode) ∧ text s = text s') →
    t.err = t'.err ∧ t.errSym = t'.errSym ∧ t.errPos = t'.errPos ∧
    ((i = .encode → t.err = 0) → t.obuf = t'.obuf ∧ t.obufLen = t'.obufLen) ∧
    (i = .decode → t.err = 0 → t.res = t'.res)

/-! ## Reset and the invariant -/

/-- R112: every field of the state the machine starts in has the value of the table, so every register, buffer word and
reserved offset reads as 0. -/
def Obligations.ResetStateIsZero : Prop :=
  State.reset.cmdLast.toNat = 0 ∧ State.reset.err.toNat = 0 ∧ State.reset.sticky = false ∧ State.reset.arg.toNat = 0 ∧
  State.reset.res.toNat = 0 ∧ State.reset.acc.toNat = 0 ∧ (∀ i : Fin 64, State.reset.ibuf[i.val].toNat = 0) ∧
  State.reset.ibufLen.toNat = 0 ∧ (∀ i : Fin 64, State.reset.obuf[i.val].toNat = 0) ∧ State.reset.obufLen.toNat = 0 ∧
  State.reset.errSym.toNat = 0 ∧ State.reset.errPos.toNat = 0 ∧ ∀ off : Nat, (busRead off State.reset).toNat = 0

/-- spec/70_reset_and_hazards.md section 1: a reset between commands, from any state, gives every field of the unit the value
it has in the state the machine starts in. That a reset comes as a pending transaction, and that the host goes on with its
program after it, are the model's choice (log entry 6, DESIGN CHOICE). -/
def Obligations.ResetFromAnyStateClearsTheUnit : Prop :=
  ∀ (s : State) (rest : List Transaction), AtAccess s .reset rest →
    ∃ t, step s = .next t ∧ OnlyHost State.reset t ∧ t.host = { s.host with pending := rest }

/-- spec/70_reset_and_hazards.md section 1 ("The reset state meets every invariant"; the invariants are the spec's own
inference, R33). -/
def Obligations.ResetMeetsTheInvariant : Prop := Inv State.reset

/-- spec/10_state.md section 5 (the spec's own inference, R33): every step of the machine keeps the invariant, whatever the
script, the pending transactions and the rest of the state are. -/
def Obligations.EveryStepKeepsTheInvariant : Prop :=
  ∀ s t : State, Inv s → step s = .next t → Inv t

/-! ## The register window -/

/-- R38: the accesses the model refuses are exactly those that are not 4 bytes wide, not aligned or outside the window, for
a read and for a write of any value. -/
def Obligations.OnlyWronglyShapedAccessesAreRefused : Prop :=
  ∀ (s : State) (off : Int) (size : Nat) (src : Src) (rest : List Transaction),
    (AtAccess s (.write off size src) rest → ((∃ t, step s = .next t) ↔ Admitted off size) ∧
      (¬ Admitted off size → ∃ r, step s = .refused r)) ∧
    (AtAccess s (.read off size) rest → ((∃ t, step s = .next t) ↔ Admitted off size) ∧
      (¬ Admitted off size → ∃ r, step s = .refused r))

/-- spec/20_memory.md section 2, `busRead`: an admitted read returns what the table gives, in arithmetic, to the host's
scratch value, and changes no field of the unit. -/
def Obligations.ReadsReturnTheRegisterMap : Prop :=
  ∀ (s : State) (off : Nat) (rest : List Transaction), off < 0x100 → off % 4 = 0 → AtAccess s (.read off 4) rest →
    ∃ t, step s = .next t ∧ OnlyHost s t ∧ t.host = { s.host with pending := rest, scratch := t.host.scratch } ∧
      t.host.scratch.toNat = readNat off s

/-- R36: reserved offsets read 0 and ignore writes, read-only registers ignore writes, and none of these accesses starts a
command or changes ERR or STICKY (no field of the unit changes at all). -/
def Obligations.ReservedAndReadOnlyOffsetsIgnoreWrites : Prop :=
  ∀ (s : State) (off : Nat) (src : Src) (rest : List Transaction), off % 4 = 0 →
    (((0x28 ≤ off ∧ off < 0x40) ∨ (0xC0 ≤ off ∧ off < 0x100)) → AtAccess s (.read off 4) rest →
      ∃ t, step s = .next t ∧ OnlyHost s t ∧ t.host.scratch.toNat = 0) ∧
    (((0x28 ≤ off ∧ off < 0x40) ∨ (0xC0 ≤ off ∧ off < 0x100) ∨ off ∈ [0x10, 0x14, 0x18, 0x20, 0x24] ∨
        (0x80 ≤ off ∧ off < 0xC0)) → AtAccess s (.write off 4 src) rest → step s = .next (withRest rest s))

/-- R25: STATUS reads as ERR in [3:0] and STICKY in [8] with every other bit 0; a write clears STICKY exactly when its bit 8
is set and does nothing else; ERR resets to 0 and STICKY to 0; no command leaves a code above 6. -/
def Obligations.StatusReadsErrAndStickyAndClearsSticky : Prop :=
  (∀ (s : State) (rest : List Transaction), AtAccess s (.read 0x04 4) rest →
    ∃ t, step s = .next t ∧ OnlyHost s t ∧ t.host.scratch.toNat = s.err.toNat + s.sticky.toNat * 2 ^ 8) ∧
  (∀ (s : State) (src : Src) (rest : List Transaction), AtAccess s (.write 0x04 4 src) rest →
    ((srcValue src s).toNat / 2 ^ 8 % 2 = 1 → step s = .next { withRest rest s with sticky := false }) ∧
    ((srcValue src s).toNat / 2 ^ 8 % 2 = 0 → step s = .next (withRest rest s))) ∧
  State.reset.err.toNat = 0 ∧ State.reset.sticky = false ∧
  ∀ (i : Instr) (s t : State), exec i s = .next t → t.err.toNat ≤ 6

/-- R26: a write of ARG_LO replaces the low half of ARG only, a write of ARG_HI the high half only; a read returns the
stored half; no command writes ARG; commands read it as unsigned (an operand with bit 63 set is too large for each of the
four that test a range); ARG resets to 0. -/
def Obligations.ArgHalvesAreIndependent : Prop :=
  (∀ (s : State) (src : Src) (rest : List Transaction), AtAccess s (.write 0x08 4 src) rest →
    ∃ t, step s = .next t ∧ t = { withRest rest s with arg := t.arg } ∧
      t.arg.toNat = s.arg.toNat / 2 ^ 32 * 2 ^ 32 + (srcValue src s).toNat) ∧
  (∀ (s : State) (src : Src) (rest : List Transaction), AtAccess s (.write 0x0C 4 src) rest →
    ∃ t, step s = .next t ∧ t = { withRest rest s with arg := t.arg } ∧
      t.arg.toNat = (srcValue src s).toNat * 2 ^ 32 + s.arg.toNat % 2 ^ 32) ∧
  (∀ (s : State) (rest : List Transaction), AtAccess s (.read 0x08 4) rest →
    ∃ t, step s = .next t ∧ OnlyHost s t ∧ t.host.scratch.toNat = s.arg.toNat % 2 ^ 32) ∧
  (∀ (s : State) (rest : List Transaction), AtAccess s (.read 0x0C 4) rest →
    ∃ t, step s = .next t ∧ OnlyHost s t ∧ t.host.scratch.toNat = s.arg.toNat / 2 ^ 32) ∧
  (∀ (i : Instr) (s t : State), exec i s = .next t → t.arg = s.arg) ∧
  (∀ s : State, s.arg.getLsbD 63 = true →
    (∀ i ∈ [Instr.symbolOf, .digitOf, .csumStep], ∃ t, exec i s = .next t ∧ t.err.toNat = 5) ∧
    ∃ t, exec .encode s = .next t ∧ t.err.toNat = 1) ∧
  State.reset.arg.toNat = 0

/-- R28: ACC reads as a number below 32 with the bits above 0, only CSUM_CLEAR and CSUM_STEP write it, host writes to it are
ignored, and it resets to 0. -/
def Obligations.AccIsWrittenByItsTwoCommandsOnly : Prop :=
  (∀ (s : State) (rest : List Transaction), AtAccess s (.read 0x18 4) rest →
    ∃ t, step s = .next t ∧ OnlyHost s t ∧ t.host.scratch.toNat = s.acc.toNat ∧ t.host.scratch.toNat < 32) ∧
  (∀ (s : State) (src : Src) (rest : List Transaction), AtAccess s (.write 0x18 4 src) rest →
    step s = .next (withRest rest s)) ∧
  (∀ (i : Instr) (s t : State), exec i s = .next t → t.acc ≠ s.acc → i = .csumClear ∨ i = .csumStep) ∧
  State.reset.acc.toNat = 0

/-- R29: a write of IBUF_LEN stores min(v, 64) and a read returns what is stored; a write of an IBUF word stores its four
bytes and no other byte; no command writes either; no command looks at the bytes from IBUF_LEN on; both reset to 0. -/
def Obligations.InputBufferHoldsTheInputText : Prop :=
  (∀ (s : State) (src : Src) (rest : List Transaction), AtAccess s (.write 0x1C 4 src) rest →
    ∃ t, step s = .next t ∧ t = { withRest rest s with ibufLen := t.ibufLen } ∧
      t.ibufLen.toNat = min (srcValue src s).toNat 64) ∧
  (∀ (s : State) (rest : List Transaction), AtAccess s (.read 0x1C 4) rest →
    ∃ t, step s = .next t ∧ OnlyHost s t ∧ t.host.scratch.toNat = s.ibufLen.toNat) ∧
  (∀ (s : State) (src : Src) (k : Nat) (rest : List Transaction), k < 16 →
    AtAccess s (.write (0x40 + 4 * k : Nat) 4 src) rest →
    ∃ t, step s = .next t ∧ t = { withRest rest s with ibuf := t.ibuf } ∧
      (∀ i : Fin 64, i.val / 4 = k →
        t.ibuf[i.val].toNat = (srcValue src s).toNat / 2 ^ (8 * (i.val % 4)) % 2 ^ 8) ∧
      ∀ i : Fin 64, i.val / 4 ≠ k → t.ibuf[i.val] = s.ibuf[i.val]) ∧
  (∀ (i : Instr) (s t : State), exec i s = .next t → t.ibuf = s.ibuf ∧ t.ibufLen = s.ibufLen) ∧
  (∀ (i : Instr) (s t : State) (b : Vector Byte 64), exec i s = .next t →
    (∀ j : Fin 64, j.val < s.ibufLen.toNat → b[j.val] = s.ibuf[j.val]) →
    exec i { s with ibuf := b } = .next { t with ibuf := b }) ∧
  (∀ i : Fin 64, State.reset.ibuf[i.val].toNat = 0) ∧ State.reset.ibufLen.toNat = 0

/-- spec/20_memory.md section 3, little-endian order: a word of IBUF reads and writes its byte 4k in [7:0] and its byte 4k+3
in [31:24], a word of OBUF reads the same way, the low half of ARG and of RES is at the lower offset. The last clause is the
text of spec/95_test_vectors.md E1; the example inside R41 has two bytes of its second word the other way round, against
the rule it illustrates (log entry 19). -/
def Obligations.BufferWordsAreLittleEndian : Prop :=
  (∀ (s : State) (k : Fin 16) (rest : List Transaction), AtAccess s (.read (0x40 + 4 * k.val : Nat) 4) rest →
    ∃ t, step s = .next t ∧ OnlyHost s t ∧ ∀ j : Fin 4,
      t.host.scratch.toNat / 2 ^ (8 * j.val) % 2 ^ 8 = (s.ibuf[4 * k.val + j.val]'(by omega)).toNat) ∧
  (∀ (s : State) (k : Fin 16) (src : Src) (rest : List Transaction),
    AtAccess s (.write (0x40 + 4 * k.val : Nat) 4 src) rest →
    ∃ t, step s = .next t ∧ ∀ j : Fin 4,
      (t.ibuf[4 * k.val + j.val]'(by omega)).toNat = (srcValue src s).toNat / 2 ^ (8 * j.val) % 2 ^ 8) ∧
  (∀ (s : State) (k : Fin 16) (rest : List Transaction), AtAccess s (.read (0x80 + 4 * k.val : Nat) 4) rest →
    ∃ t, step s = .next t ∧ OnlyHost s t ∧ ∀ j : Fin 4,
      t.host.scratch.toNat / 2 ^ (8 * j.val) % 2 ^ 8 = (s.obuf[4 * k.val + j.val]'(by omega)).toNat) ∧
  (∀ s : State, (busRead 0x08 s).toNat + (busRead 0x0C s).toNat * 2 ^ 32 = s.arg.toNat ∧
    (busRead 0x10 s).toNat + (busRead 0x14 s).toNat * 2 ^ 32 = s.res.toNat) ∧
  expand (.lstr (['D', 'D', '7', 'D', '-', '9', '6', 'Y', 'Y'].map fun c => BitVec.ofNat 8 c.toNat)) =
    some [.write 0x40 4 (.imm 0x44374444), .write 0x44 4 (.imm 0x5936392D), .write 0x48 4 (.imm 0x00000059),
      .write 0x1C 4 (.imm 9)]

/-- spec/70_reset_and_hazards.md section 2 ("no step of its own") and spec/20_memory.md section 2 (side effects): a step
that makes no access, or makes a read, leaves every field of the unit as it was. -/
def Obligations.OnlyWritesAndResetsChangeTheUnit : Prop :=
  ∀ s t : State, step s = .next t →
    (made s = none ∨ made s = some .readText ∨ ∃ off size, made s = some (.read off size)) → OnlyHost s t

/-- spec/20_memory.md sections 1 and 2: the window begins at BASE, a multiple of 256, whatever BASE is. An access at
BASE + off is the admitted access at offset off, and one below BASE or from BASE + 256 on is refused. These are the accesses
that a step makes: a transaction's offset is its address less BASE (log entry 3, DESIGN CHOICE), for every address and size,
admitted or not. -/
def Obligations.WindowIsPlacedAtBase : Prop :=
  256 ∣ Config.base ∧
  (∀ (s : State) (v : Word),
    (∀ off < 256, off % 4 = 0 →
      memWrite (Config.base + off) 4 v s = busWrite off v s ∧ memRead (Config.base + off) 4 s = .ok (busRead off s)) ∧
    ∀ addr size, (addr < Config.base ∨ Config.base + 256 ≤ addr) →
      (∃ r, memWrite addr size v s = .refused r) ∧ ∃ r, memRead addr size s = .error r) ∧
  ∀ (s : State) (addr size : Nat) (rest : List Transaction),
    (∀ src, AtAccess s (.write ((addr : Int) - Config.base) size src) rest →
      step s = memWrite addr size (srcValue src s) (withRest rest s)) ∧
    (AtAccess s (.read ((addr : Int) - Config.base) size) rest →
      (∀ v, memRead addr size s = .ok v →
        ∃ t, step s = .next t ∧ OnlyHost s t ∧ t.host = { s.host with pending := rest, scratch := v }) ∧
      ∀ r, memRead addr size s = .error r → step s = .refused r)

/-! ## The host script -/

/-- spec/30_encoding.md section 3 and spec/70_reset_and_hazards.md section 3: the host's own control flow changes the host
alone: `beq` and `bne` compare `t` with the immediate, `andi` sets `t`, `halt` stops the script, after which no step happens.
The model's own choice: a label is the index of a line, and such a line takes a step of the model, though R114 counts one step
per access (log entry 7, DESIGN CHOICE); that the step after `halt` or past the last line is a refusal, under a name of its
own, is read from R118 by inference (log entry 5, DEDUCED). -/
def Obligations.ScriptControlFlowIsTheHostsOwn : Prop :=
  (∀ (s : State) (imm : Word) (label : Nat), AtLine s (.beq imm label) →
    step s = .next { s with host :=
      if s.host.scratch = imm then { s.host with line := label } else lineTaken s }) ∧
  (∀ (s : State) (imm : Word) (label : Nat), AtLine s (.bne imm label) →
    step s = .next { s with host :=
      if s.host.scratch = imm then lineTaken s else { s.host with line := label } }) ∧
  (∀ (s : State) (imm : Word), AtLine s (.andi imm) →
    ∃ t, step s = .next t ∧ OnlyHost s t ∧ t.host = { lineTaken s with scratch := t.host.scratch } ∧
      t.host.scratch.toNat = s.host.scratch.toNat &&& imm.toNat) ∧
  (∀ s : State, AtLine s .halt →
    ∃ t, step s = .next t ∧ t = { s with host := { lineTaken s with halted := true } } ∧ step t = .refused .hostHalted) ∧
  ∀ s : State, s.host.pending = [] → s.host.halted = false → s.host.script.length ≤ s.host.line →
    step s = .refused .noHostAccess

/-- spec/30_encoding.md section 3: what the script's lines put on the bus, for every line that puts anything there, and what
value a write takes. `rdstr` reads OBUF_LEN and then its words; that the number of these reads is fixed when OBUF_LEN has been
read is the model's inference (log entry 14, DEDUCED). That the accesses after the first stay pending in State, in order, one
step for each, is the model's choice (log entry 1, DESIGN CHOICE). -/
def Obligations.ScriptLinesExpandToTransactions : Prop :=
  (∀ (reg : Reg) (src : Src), expand (.wr reg src) = some [.write (offsetOf reg) 4 src]) ∧
  (∀ reg : Reg, expand (.rd reg) = some [.read (offsetOf reg) 4]) ∧
  (∀ (v : Word) (s : State), srcValue (.imm v) s = v ∧ srcValue .scratch s = s.host.scratch) ∧
  (∀ i : Instr, expand (.cmd i) = some [.write 0x00 4 (.imm (encode i))]) ∧
  (∀ bytes : List Byte, bytes.length ≤ 64 → ∃ words : List Word,
    expand (.lstr bytes) = some (words.mapIdx (fun k v => Transaction.write (0x40 + 4 * k : Nat) 4 (.imm v)) ++
      [.write 0x1C 4 (.imm (BitVec.ofNat 32 bytes.length))]) ∧
    4 * words.length < bytes.length + 4 ∧ bytes.length ≤ 4 * words.length ∧
    ∀ k < words.length, ∀ j < 4,
      (words.getD k 0).toNat / 2 ^ (8 * j) % 2 ^ 8 = (bytes.getD (4 * k + j) 0).toNat) ∧
  (∀ v : DWord, ∃ lo hi : Word, expand (.li64 v) = some [.write 0x08 4 (.imm lo), .write 0x0C 4 (.imm hi)] ∧
    v.toNat = hi.toNat * 2 ^ 32 + lo.toNat) ∧
  expand .clrsticky = some [.write 0x04 4 (.imm 0x100)] ∧
  expand .rd64 = some [.read 0x10 4, .read 0x14 4] ∧ expand .rdstr = some [.readText] ∧
  (∀ (s : State) (rest : List Transaction), AtAccess s .readText rest → s.obufLen.toNat ≤ 64 →
    ∃ (t : State) (reads : List Transaction),
      step s = .next t ∧ OnlyHost s t ∧ t.host.scratch.toNat = s.obufLen.toNat ∧
      t.host.pending = reads ++ rest ∧ 4 * reads.length < s.obufLen.toNat + 4 ∧ s.obufLen.toNat ≤ 4 * reads.length ∧
      ∀ k < reads.length, reads[k]? = some (Transaction.read ((0x80 + 4 * k : Nat) : Int) 4)) ∧
  ∀ (s : State) (l : Line) (x : Transaction) (rest : List Transaction), AtLine s l → expand l = some (x :: rest) →
    step s = step { s with host := { lineTaken s with pending := x :: rest } }

/-- spec/30_encoding.md section 3, `lstr`: once the accesses of the line have been made, IBUF and IBUF_LEN hold the text, the
bytes that are missing from its last word are 0, every byte of IBUF past that word is as it was, and nothing else of the unit
has changed. That each access is a step of its own is the model's choice (log entry 1, DESIGN CHOICE). -/
def Obligations.LstrLoadsTheText : Prop :=
  ∀ (s : State) (bytes : List Byte), AtLine s (.lstr bytes) → bytes.length ≤ 64 →
    ∃ t : State, core.run ((bytes.length + 3) / 4 + 1) s = .next t ∧ text t = bytes ∧ t.host = lineTaken s ∧
      t = { s with ibuf := t.ibuf, ibufLen := t.ibufLen, host := t.host } ∧
      ∀ j : Fin 64,
        (bytes.length ≤ j.val → j.val < 4 * ((bytes.length + 3) / 4) → t.ibuf[j.val] = 0) ∧
        (4 * ((bytes.length + 3) / 4) ≤ j.val → t.ibuf[j.val] = s.ibuf[j.val])

/-! ## The permutation -/

/-- spec/42_permutation.md section 2, laws (a), (b) (the spec's own inference, R74): below 2^35, UNMASK of what MASK gives is
the operand again, and MASK of what UNMASK gives. -/
def Obligations.MaskAndUnmaskAreInverse : Prop :=
  ∀ s t u t' : State, s.arg.toNat < 2 ^ 35 →
    (exec .mask s = .next t → t'.arg = t.res → exec .unmask t' = .next u → u.res = s.arg) ∧
    (exec .unmask s = .next t → t'.arg = t.res → exec .mask t' = .next u → u.res = s.arg)

/-- spec/42_permutation.md section 2, laws (e), (f) (the spec's own inference, R74): MASK keeps the number of trailing zero
bits of an operand, so a non-zero operand below 2^35 never gives 0, and it looks at the low 35 bits of its operand only. -/
def Obligations.MaskKeepsTrailingZeros : Prop :=
  ∀ s t : State, exec .mask s = .next t →
    (∀ k ≤ 35, (2 ^ k ∣ t.res.toNat ↔ 2 ^ k ∣ s.arg.toNat)) ∧
    (0 < s.arg.toNat → s.arg.toNat < 2 ^ 35 → t.res.toNat ≠ 0) ∧
    ∀ s' t' : State, exec .mask s' = .next t' → s'.arg.toNat = s.arg.toNat % 2 ^ 35 → t'.res = t.res

/-! ## The checksum -/

/-- spec/43_checksum.md sections 1 and 2: writing the digits of a sequence to ARG_LO one by one, each followed by CSUM_STEP,
folds the step of R77 over the sequence in order, from whatever ACC holds. The accesses are made from the host's list, one a
step (log entry 1, DESIGN CHOICE). -/
def Obligations.StepsFoldTheChecksum : Prop :=
  ∀ (ds : List Digit) (s : State) (rest : List Transaction), s.arg.toNat < 2 ^ 32 →
    s.host.pending = ds.flatMap (fun d =>
      [Transaction.write 0x08 4 (.imm (d.setWidth 32)), Transaction.write 0x00 4 (.imm 0x00000007)]) ++ rest →
    ∃ t : State, core.run (2 * ds.length) s = .next t ∧ t.acc.toNat = (ds.map (·.toNat)).foldl stepNat s.acc.toNat ∧
      t.host = (withRest rest s).host ∧ t.res = s.res ∧ t.obuf = s.obuf ∧ t.obufLen = s.obufLen ∧
      t.ibuf = s.ibuf ∧ t.ibufLen = s.ibufLen ∧ t.sticky = s.sticky

/-- spec/43_checksum.md section 1 (the spec's own inference, R79): the checksum of a sequence is the one digit that,
appended, makes the checksum 0. -/
def Obligations.CheckDigitIsUnique : Prop :=
  ∀ (ds : List Digit) (c : Digit), checksum (ds ++ [c]) = 0 ↔ c = checksum ds

/-- spec/43_checksum.md section 1 (d) (the spec's own inference, R80): changing one digit of a valid sequence always makes
the checksum non-zero, at any length. -/
def Obligations.ChecksumDetectsEverySubstitution : Prop :=
  ∀ (before after : List Digit) (a b : Digit), a ≠ b → checksum (before ++ a :: after) = 0 →
    checksum (before ++ b :: after) ≠ 0

/-- spec/43_checksum.md section 1 (e) (the spec's own inference, R80): swapping two different digits of a valid sequence at
a distance of 1 to 30 always makes the checksum non-zero; at distance 31 the checksum does not change. -/
def Obligations.ChecksumDetectsTranspositions : Prop :=
  (∀ (before mid after : List Digit) (a b : Digit), a ≠ b → mid.length + 1 ≤ 30 →
    checksum (before ++ a :: mid ++ b :: after) = 0 → checksum (before ++ b :: mid ++ a :: after) ≠ 0) ∧
  ∀ (before mid after : List Digit) (a b : Digit), mid.length + 1 = 31 →
    checksum (before ++ a :: mid ++ b :: after) = checksum (before ++ b :: mid ++ a :: after)

/-! ## The codec -/

/-- spec/44_codec.md section 1: `toDigits` gives the base-32 digits of a number, most significant first, with no leading
zero, and `padDigits` puts zeros in front up to five digits, which do not change the value (in part the spec's own inference,
R87). -/
def Obligations.DigitsAreBase32 : Prop :=
  ∀ h : Nat, fromDigits (toDigits h) = h ∧ (∀ d ∈ (toDigits h).head?, d ≠ 0) ∧
    (∀ k, (toDigits h).length ≤ k ↔ h < 32 ^ k) ∧
    fromDigits (padDigits (toDigits h)) = h ∧ (padDigits (toDigits h)).length = max 5 (toDigits h).length

/-- spec/44_codec.md section 1, the length table (the spec's own inference, R90; spec/90_conflicts.md C1): a code is 7, 8 or
9 bytes long by the size of the masked value, its fifth byte is the dash and no other byte is. COPRIME's number in the masked
value is the spec's own inference too (spec/42_permutation.md section 1, R71; log entry 11). -/
def Obligations.CodeLengthFollowsTheMaskedValue : Prop :=
  ∀ s t : State, exec .encode s = .next t → t.err = 0 →
    (5777025351 * s.arg.toNat % 2 ^ 35 < 32 ^ 5 → t.obufLen.toNat = 7) ∧
    (32 ^ 5 ≤ 5777025351 * s.arg.toNat % 2 ^ 35 → 5777025351 * s.arg.toNat % 2 ^ 35 < 32 ^ 6 → t.obufLen.toNat = 8) ∧
    (32 ^ 6 ≤ 5777025351 * s.arg.toNat % 2 ^ 35 → t.obufLen.toNat = 9) ∧
    ∀ i : Fin 64, (t.obuf[i.val].toNat = '-'.toNat ↔ i.val = 4)

/-- spec/41_normalizer.md section 1 (the spec's own inference, R66): normalizing a normalized text changes nothing and
reports the same. -/
def Obligations.NormalizeIsIdempotent : Prop :=
  ∀ s t s' t' : State, exec .normalize s = .next t → s'.ibuf = t.obuf → s'.ibufLen = t.obufLen →
    exec .normalize s' = .next t' →
    t'.obuf = t.obuf ∧ t'.obufLen = t.obufLen ∧ t'.err = t.err ∧ t'.errSym = t.errSym ∧ t'.errPos = t.errPos

/-- spec/44_codec.md (the spec's own inference, R93): for every number from 1 below 2^35, DECODE of the code that ENCODE
gives is that number, also when the code comes back with other dashes, in lower case, or with I, L or O in place of 1 or 0
(any text that normalizes as the code does). -/
def Obligations.DecodeOfEncodeIsTheNumber : Prop :=
  ∀ s t s' : State, 1 ≤ s.arg.toNat → s.arg.toNat < 2 ^ 35 → exec .encode s = .next t →
    normalText s' = (outputText t).filterMap normalByte →
    ∃ u, exec .decode s' = .next u ∧ u.res = s.arg ∧ u.err = 0 ∧ u.sticky = s'.sticky

/-- spec/44_codec.md (the spec's own inference, R94): change one byte of a text that DECODE accepts to any byte that
normalizes to a different symbol, and DECODE fails with CHECKSUM_MISMATCH; or swap two bytes that normalize to different
symbols. RES is then kept. -/
def Obligations.DecodeDetectsOneWrongOrSwappedSymbol : Prop :=
  ∀ (s t s' : State) (a b : Byte), exec .decode s = .next t → t.err = 0 →
    ((∃ before after x y, text s = before ++ x :: after ∧ text s' = before ++ y :: after ∧
        normalByte x = some a ∧ normalByte y = some b ∧ a ≠ b ∧ IsSymbol b) ∨
      (∃ before mid after x y, text s = before ++ x :: mid ++ y :: after ∧ text s' = before ++ y :: mid ++ x :: after ∧
        normalByte x = some a ∧ normalByte y = some b ∧ a ≠ b)) →
    ∃ u, exec .decode s' = .next u ∧ u.err.toNat = 3 ∧ u.res = s'.res
end

