-- ==== Sys2Proof/Laws/State.lean ====
section
/-! SUPPORT. What each named update does to each field of the state: one lemma per field per update, each true by unfolding. -/

namespace Sys2Proof.Machine

section
variable (s : State)

@[simp] theorem finish_cmdLast (c : ErrCode) (y : Byte) (p : Nat) : (finish c y p s).cmdLast = s.cmdLast := rfl
@[simp] theorem finish_err (c : ErrCode) (y : Byte) (p : Nat) : (finish c y p s).err = errNumber c := rfl
@[simp] theorem finish_sticky (c : ErrCode) (y : Byte) (p : Nat) : (finish c y p s).sticky = stickyAfter c s.sticky := rfl
@[simp] theorem finish_arg (c : ErrCode) (y : Byte) (p : Nat) : (finish c y p s).arg = s.arg := rfl
@[simp] theorem finish_res (c : ErrCode) (y : Byte) (p : Nat) : (finish c y p s).res = s.res := rfl
@[simp] theorem finish_acc (c : ErrCode) (y : Byte) (p : Nat) : (finish c y p s).acc = s.acc := rfl
@[simp] theorem finish_ibuf (c : ErrCode) (y : Byte) (p : Nat) : (finish c y p s).ibuf = s.ibuf := rfl
@[simp] theorem finish_ibufLen (c : ErrCode) (y : Byte) (p : Nat) : (finish c y p s).ibufLen = s.ibufLen := rfl
@[simp] theorem finish_obuf (c : ErrCode) (y : Byte) (p : Nat) : (finish c y p s).obuf = s.obuf := rfl
@[simp] theorem finish_obufLen (c : ErrCode) (y : Byte) (p : Nat) : (finish c y p s).obufLen = s.obufLen := rfl
@[simp] theorem finish_errSym (c : ErrCode) (y : Byte) (p : Nat) : (finish c y p s).errSym = y := rfl
@[simp] theorem finish_errPos (c : ErrCode) (y : Byte) (p : Nat) : (finish c y p s).errPos = BitVec.ofNat 7 p := rfl
@[simp] theorem finish_host (c : ErrCode) (y : Byte) (p : Nat) : (finish c y p s).host = s.host := rfl

@[simp] theorem setOut_cmdLast (l : List Byte) : (setOut l s).cmdLast = s.cmdLast := rfl
@[simp] theorem setOut_err (l : List Byte) : (setOut l s).err = s.err := rfl
@[simp] theorem setOut_sticky (l : List Byte) : (setOut l s).sticky = s.sticky := rfl
@[simp] theorem setOut_arg (l : List Byte) : (setOut l s).arg = s.arg := rfl
@[simp] theorem setOut_res (l : List Byte) : (setOut l s).res = s.res := rfl
@[simp] theorem setOut_acc (l : List Byte) : (setOut l s).acc = s.acc := rfl
@[simp] theorem setOut_ibuf (l : List Byte) : (setOut l s).ibuf = s.ibuf := rfl
@[simp] theorem setOut_ibufLen (l : List Byte) : (setOut l s).ibufLen = s.ibufLen := rfl
@[simp] theorem setOut_obuf (l : List Byte) : (setOut l s).obuf = zeroFilled l := rfl
@[simp] theorem setOut_obufLen (l : List Byte) : (setOut l s).obufLen = BitVec.ofNat 7 l.length := rfl
@[simp] theorem setOut_errSym (l : List Byte) : (setOut l s).errSym = s.errSym := rfl
@[simp] theorem setOut_errPos (l : List Byte) : (setOut l s).errPos = s.errPos := rfl
@[simp] theorem setOut_host (l : List Byte) : (setOut l s).host = s.host := rfl

@[simp] theorem setRes_cmdLast (v : Nat) : (setRes v s).cmdLast = s.cmdLast := rfl
@[simp] theorem setRes_err (v : Nat) : (setRes v s).err = s.err := rfl
@[simp] theorem setRes_sticky (v : Nat) : (setRes v s).sticky = s.sticky := rfl
@[simp] theorem setRes_arg (v : Nat) : (setRes v s).arg = s.arg := rfl
@[simp] theorem setRes_res (v : Nat) : (setRes v s).res = BitVec.ofNat 64 v := rfl
@[simp] theorem setRes_acc (v : Nat) : (setRes v s).acc = s.acc := rfl
@[simp] theorem setRes_ibuf (v : Nat) : (setRes v s).ibuf = s.ibuf := rfl
@[simp] theorem setRes_ibufLen (v : Nat) : (setRes v s).ibufLen = s.ibufLen := rfl
@[simp] theorem setRes_obuf (v : Nat) : (setRes v s).obuf = s.obuf := rfl
@[simp] theorem setRes_obufLen (v : Nat) : (setRes v s).obufLen = s.obufLen := rfl
@[simp] theorem setRes_errSym (v : Nat) : (setRes v s).errSym = s.errSym := rfl
@[simp] theorem setRes_errPos (v : Nat) : (setRes v s).errPos = s.errPos := rfl
@[simp] theorem setRes_host (v : Nat) : (setRes v s).host = s.host := rfl

@[simp] theorem setAcc_cmdLast (d : Digit) : (setAcc d s).cmdLast = s.cmdLast := rfl
@[simp] theorem setAcc_err (d : Digit) : (setAcc d s).err = s.err := rfl
@[simp] theorem setAcc_sticky (d : Digit) : (setAcc d s).sticky = s.sticky := rfl
@[simp] theorem setAcc_arg (d : Digit) : (setAcc d s).arg = s.arg := rfl
@[simp] theorem setAcc_res (d : Digit) : (setAcc d s).res = s.res := rfl
@[simp] theorem setAcc_acc (d : Digit) : (setAcc d s).acc = d := rfl
@[simp] theorem setAcc_ibuf (d : Digit) : (setAcc d s).ibuf = s.ibuf := rfl
@[simp] theorem setAcc_ibufLen (d : Digit) : (setAcc d s).ibufLen = s.ibufLen := rfl
@[simp] theorem setAcc_obuf (d : Digit) : (setAcc d s).obuf = s.obuf := rfl
@[simp] theorem setAcc_obufLen (d : Digit) : (setAcc d s).obufLen = s.obufLen := rfl
@[simp] theorem setAcc_errSym (d : Digit) : (setAcc d s).errSym = s.errSym := rfl
@[simp] theorem setAcc_errPos (d : Digit) : (setAcc d s).errPos = s.errPos := rfl
@[simp] theorem setAcc_host (d : Digit) : (setAcc d s).host = s.host := rfl

@[simp] theorem setCmdLast_cmdLast (w : Word) : (setCmdLast w s).cmdLast = w := rfl
@[simp] theorem setCmdLast_err (w : Word) : (setCmdLast w s).err = s.err := rfl
@[simp] theorem setCmdLast_sticky (w : Word) : (setCmdLast w s).sticky = s.sticky := rfl
@[simp] theorem setCmdLast_arg (w : Word) : (setCmdLast w s).arg = s.arg := rfl
@[simp] theorem setCmdLast_res (w : Word) : (setCmdLast w s).res = s.res := rfl
@[simp] theorem setCmdLast_acc (w : Word) : (setCmdLast w s).acc = s.acc := rfl
@[simp] theorem setCmdLast_ibuf (w : Word) : (setCmdLast w s).ibuf = s.ibuf := rfl
@[simp] theorem setCmdLast_ibufLen (w : Word) : (setCmdLast w s).ibufLen = s.ibufLen := rfl
@[simp] theorem setCmdLast_obuf (w : Word) : (setCmdLast w s).obuf = s.obuf := rfl
@[simp] theorem setCmdLast_obufLen (w : Word) : (setCmdLast w s).obufLen = s.obufLen := rfl
@[simp] theorem setCmdLast_errSym (w : Word) : (setCmdLast w s).errSym = s.errSym := rfl
@[simp] theorem setCmdLast_errPos (w : Word) : (setCmdLast w s).errPos = s.errPos := rfl
@[simp] theorem setCmdLast_host (w : Word) : (setCmdLast w s).host = s.host := rfl

@[simp] theorem setArgLo_cmdLast (v : Word) : (setArgLo v s).cmdLast = s.cmdLast := rfl
@[simp] theorem setArgLo_err (v : Word) : (setArgLo v s).err = s.err := rfl
@[simp] theorem setArgLo_sticky (v : Word) : (setArgLo v s).sticky = s.sticky := rfl
@[simp] theorem setArgLo_arg (v : Word) : (setArgLo v s).arg = s.arg.extractLsb' 32 32 ++ v := rfl
@[simp] theorem setArgLo_res (v : Word) : (setArgLo v s).res = s.res := rfl
@[simp] theorem setArgLo_acc (v : Word) : (setArgLo v s).acc = s.acc := rfl
@[simp] theorem setArgLo_ibuf (v : Word) : (setArgLo v s).ibuf = s.ibuf := rfl
@[simp] theorem setArgLo_ibufLen (v : Word) : (setArgLo v s).ibufLen = s.ibufLen := rfl
@[simp] theorem setArgLo_obuf (v : Word) : (setArgLo v s).obuf = s.obuf := rfl
@[simp] theorem setArgLo_obufLen (v : Word) : (setArgLo v s).obufLen = s.obufLen := rfl
@[simp] theorem setArgLo_errSym (v : Word) : (setArgLo v s).errSym = s.errSym := rfl
@[simp] theorem setArgLo_errPos (v : Word) : (setArgLo v s).errPos = s.errPos := rfl
@[simp] theorem setArgLo_host (v : Word) : (setArgLo v s).host = s.host := rfl

@[simp] theorem setArgHi_cmdLast (v : Word) : (setArgHi v s).cmdLast = s.cmdLast := rfl
@[simp] theorem setArgHi_err (v : Word) : (setArgHi v s).err = s.err := rfl
@[simp] theorem setArgHi_sticky (v : Word) : (setArgHi v s).sticky = s.sticky := rfl
@[simp] theorem setArgHi_arg (v : Word) : (setArgHi v s).arg = v ++ s.arg.extractLsb' 0 32 := rfl
@[simp] theorem setArgHi_res (v : Word) : (setArgHi v s).res = s.res := rfl
@[simp] theorem setArgHi_acc (v : Word) : (setArgHi v s).acc = s.acc := rfl
@[simp] theorem setArgHi_ibuf (v : Word) : (setArgHi v s).ibuf = s.ibuf := rfl
@[simp] theorem setArgHi_ibufLen (v : Word) : (setArgHi v s).ibufLen = s.ibufLen := rfl
@[simp] theorem setArgHi_obuf (v : Word) : (setArgHi v s).obuf = s.obuf := rfl
@[simp] theorem setArgHi_obufLen (v : Word) : (setArgHi v s).obufLen = s.obufLen := rfl
@[simp] theorem setArgHi_errSym (v : Word) : (setArgHi v s).errSym = s.errSym := rfl
@[simp] theorem setArgHi_errPos (v : Word) : (setArgHi v s).errPos = s.errPos := rfl
@[simp] theorem setArgHi_host (v : Word) : (setArgHi v s).host = s.host := rfl

@[simp] theorem setIbufLen_cmdLast (v : Word) : (setIbufLen v s).cmdLast = s.cmdLast := rfl
@[simp] theorem setIbufLen_err (v : Word) : (setIbufLen v s).err = s.err := rfl
@[simp] theorem setIbufLen_sticky (v : Word) : (setIbufLen v s).sticky = s.sticky := rfl
@[simp] theorem setIbufLen_arg (v : Word) : (setIbufLen v s).arg = s.arg := rfl
@[simp] theorem setIbufLen_res (v : Word) : (setIbufLen v s).res = s.res := rfl
@[simp] theorem setIbufLen_acc (v : Word) : (setIbufLen v s).acc = s.acc := rfl
@[simp] theorem setIbufLen_ibuf (v : Word) : (setIbufLen v s).ibuf = s.ibuf := rfl
@[simp] theorem setIbufLen_ibufLen (v : Word) : (setIbufLen v s).ibufLen = BitVec.ofNat 7 (min v.toNat ibufCap) := rfl
@[simp] theorem setIbufLen_obuf (v : Word) : (setIbufLen v s).obuf = s.obuf := rfl
@[simp] theorem setIbufLen_obufLen (v : Word) : (setIbufLen v s).obufLen = s.obufLen := rfl
@[simp] theorem setIbufLen_errSym (v : Word) : (setIbufLen v s).errSym = s.errSym := rfl
@[simp] theorem setIbufLen_errPos (v : Word) : (setIbufLen v s).errPos = s.errPos := rfl
@[simp] theorem setIbufLen_host (v : Word) : (setIbufLen v s).host = s.host := rfl

@[simp] theorem setIbufWord_cmdLast (k : Nat) (v : Word) : (setIbufWord k v s).cmdLast = s.cmdLast := by simp only [setIbufWord]
@[simp] theorem setIbufWord_err (k : Nat) (v : Word) : (setIbufWord k v s).err = s.err := by simp only [setIbufWord]
@[simp] theorem setIbufWord_sticky (k : Nat) (v : Word) : (setIbufWord k v s).sticky = s.sticky := by simp only [setIbufWord]
@[simp] theorem setIbufWord_arg (k : Nat) (v : Word) : (setIbufWord k v s).arg = s.arg := by simp only [setIbufWord]
@[simp] theorem setIbufWord_res (k : Nat) (v : Word) : (setIbufWord k v s).res = s.res := by simp only [setIbufWord]
@[simp] theorem setIbufWord_acc (k : Nat) (v : Word) : (setIbufWord k v s).acc = s.acc := by simp only [setIbufWord]
@[simp] theorem setIbufWord_ibuf (k : Nat) (v : Word) : (setIbufWord k v s).ibuf = storeWord s.ibuf k v := rfl
@[simp] theorem setIbufWord_ibufLen (k : Nat) (v : Word) : (setIbufWord k v s).ibufLen = s.ibufLen := by simp only [setIbufWord]
@[simp] theorem setIbufWord_obuf (k : Nat) (v : Word) : (setIbufWord k v s).obuf = s.obuf := by simp only [setIbufWord]
@[simp] theorem setIbufWord_obufLen (k : Nat) (v : Word) : (setIbufWord k v s).obufLen = s.obufLen := by simp only [setIbufWord]
@[simp] theorem setIbufWord_errSym (k : Nat) (v : Word) : (setIbufWord k v s).errSym = s.errSym := by simp only [setIbufWord]
@[simp] theorem setIbufWord_errPos (k : Nat) (v : Word) : (setIbufWord k v s).errPos = s.errPos := by simp only [setIbufWord]
@[simp] theorem setIbufWord_host (k : Nat) (v : Word) : (setIbufWord k v s).host = s.host := by simp only [setIbufWord]

@[simp] theorem writeStatus_cmdLast (v : Word) : (writeStatus v s).cmdLast = s.cmdLast := rfl
@[simp] theorem writeStatus_err (v : Word) : (writeStatus v s).err = s.err := rfl
@[simp] theorem writeStatus_sticky (v : Word) : (writeStatus v s).sticky = stickyAfterWrite v s.sticky := rfl
@[simp] theorem writeStatus_arg (v : Word) : (writeStatus v s).arg = s.arg := rfl
@[simp] theorem writeStatus_res (v : Word) : (writeStatus v s).res = s.res := rfl
@[simp] theorem writeStatus_acc (v : Word) : (writeStatus v s).acc = s.acc := rfl
@[simp] theorem writeStatus_ibuf (v : Word) : (writeStatus v s).ibuf = s.ibuf := rfl
@[simp] theorem writeStatus_ibufLen (v : Word) : (writeStatus v s).ibufLen = s.ibufLen := rfl
@[simp] theorem writeStatus_obuf (v : Word) : (writeStatus v s).obuf = s.obuf := rfl
@[simp] theorem writeStatus_obufLen (v : Word) : (writeStatus v s).obufLen = s.obufLen := rfl
@[simp] theorem writeStatus_errSym (v : Word) : (writeStatus v s).errSym = s.errSym := rfl
@[simp] theorem writeStatus_errPos (v : Word) : (writeStatus v s).errPos = s.errPos := rfl
@[simp] theorem writeStatus_host (v : Word) : (writeStatus v s).host = s.host := rfl

@[simp] theorem resetUnit_cmdLast : (resetUnit s).cmdLast = State.reset.cmdLast := rfl
@[simp] theorem resetUnit_err : (resetUnit s).err = State.reset.err := rfl
@[simp] theorem resetUnit_sticky : (resetUnit s).sticky = State.reset.sticky := rfl
@[simp] theorem resetUnit_arg : (resetUnit s).arg = State.reset.arg := rfl
@[simp] theorem resetUnit_res : (resetUnit s).res = State.reset.res := rfl
@[simp] theorem resetUnit_acc : (resetUnit s).acc = State.reset.acc := rfl
@[simp] theorem resetUnit_ibuf : (resetUnit s).ibuf = State.reset.ibuf := rfl
@[simp] theorem resetUnit_ibufLen : (resetUnit s).ibufLen = State.reset.ibufLen := rfl
@[simp] theorem resetUnit_obuf : (resetUnit s).obuf = State.reset.obuf := rfl
@[simp] theorem resetUnit_obufLen : (resetUnit s).obufLen = State.reset.obufLen := rfl
@[simp] theorem resetUnit_errSym : (resetUnit s).errSym = State.reset.errSym := rfl
@[simp] theorem resetUnit_errPos : (resetUnit s).errPos = State.reset.errPos := rfl
@[simp] theorem resetUnit_host : (resetUnit s).host = s.host := rfl

@[simp] theorem setHost_cmdLast (h : HostSide) : (setHost h s).cmdLast = s.cmdLast := rfl
@[simp] theorem setHost_err (h : HostSide) : (setHost h s).err = s.err := rfl
@[simp] theorem setHost_sticky (h : HostSide) : (setHost h s).sticky = s.sticky := rfl
@[simp] theorem setHost_arg (h : HostSide) : (setHost h s).arg = s.arg := rfl
@[simp] theorem setHost_res (h : HostSide) : (setHost h s).res = s.res := rfl
@[simp] theorem setHost_acc (h : HostSide) : (setHost h s).acc = s.acc := rfl
@[simp] theorem setHost_ibuf (h : HostSide) : (setHost h s).ibuf = s.ibuf := rfl
@[simp] theorem setHost_ibufLen (h : HostSide) : (setHost h s).ibufLen = s.ibufLen := rfl
@[simp] theorem setHost_obuf (h : HostSide) : (setHost h s).obuf = s.obuf := rfl
@[simp] theorem setHost_obufLen (h : HostSide) : (setHost h s).obufLen = s.obufLen := rfl
@[simp] theorem setHost_errSym (h : HostSide) : (setHost h s).errSym = s.errSym := rfl
@[simp] theorem setHost_errPos (h : HostSide) : (setHost h s).errPos = s.errPos := rfl
@[simp] theorem setHost_host (h : HostSide) : (setHost h s).host = h := rfl

@[simp] theorem setScratch_cmdLast (v : Word) : (setScratch v s).cmdLast = s.cmdLast := rfl
@[simp] theorem setScratch_err (v : Word) : (setScratch v s).err = s.err := rfl
@[simp] theorem setScratch_sticky (v : Word) : (setScratch v s).sticky = s.sticky := rfl
@[simp] theorem setScratch_arg (v : Word) : (setScratch v s).arg = s.arg := rfl
@[simp] theorem setScratch_res (v : Word) : (setScratch v s).res = s.res := rfl
@[simp] theorem setScratch_acc (v : Word) : (setScratch v s).acc = s.acc := rfl
@[simp] theorem setScratch_ibuf (v : Word) : (setScratch v s).ibuf = s.ibuf := rfl
@[simp] theorem setScratch_ibufLen (v : Word) : (setScratch v s).ibufLen = s.ibufLen := rfl
@[simp] theorem setScratch_obuf (v : Word) : (setScratch v s).obuf = s.obuf := rfl
@[simp] theorem setScratch_obufLen (v : Word) : (setScratch v s).obufLen = s.obufLen := rfl
@[simp] theorem setScratch_errSym (v : Word) : (setScratch v s).errSym = s.errSym := rfl
@[simp] theorem setScratch_errPos (v : Word) : (setScratch v s).errPos = s.errPos := rfl
@[simp] theorem setScratch_host (v : Word) : (setScratch v s).host = { s.host with scratch := v } := rfl

@[simp] theorem setPending_cmdLast (l : List Transaction) : (setPending l s).cmdLast = s.cmdLast := rfl
@[simp] theorem setPending_err (l : List Transaction) : (setPending l s).err = s.err := rfl
@[simp] theorem setPending_sticky (l : List Transaction) : (setPending l s).sticky = s.sticky := rfl
@[simp] theorem setPending_arg (l : List Transaction) : (setPending l s).arg = s.arg := rfl
@[simp] theorem setPending_res (l : List Transaction) : (setPending l s).res = s.res := rfl
@[simp] theorem setPending_acc (l : List Transaction) : (setPending l s).acc = s.acc := rfl
@[simp] theorem setPending_ibuf (l : List Transaction) : (setPending l s).ibuf = s.ibuf := rfl
@[simp] theorem setPending_ibufLen (l : List Transaction) : (setPending l s).ibufLen = s.ibufLen := rfl
@[simp] theorem setPending_obuf (l : List Transaction) : (setPending l s).obuf = s.obuf := rfl
@[simp] theorem setPending_obufLen (l : List Transaction) : (setPending l s).obufLen = s.obufLen := rfl
@[simp] theorem setPending_errSym (l : List Transaction) : (setPending l s).errSym = s.errSym := rfl
@[simp] theorem setPending_errPos (l : List Transaction) : (setPending l s).errPos = s.errPos := rfl
@[simp] theorem setPending_host (l : List Transaction) : (setPending l s).host = { s.host with pending := l } := rfl

@[simp] theorem setLine_cmdLast (n : Nat) : (setLine n s).cmdLast = s.cmdLast := rfl
@[simp] theorem setLine_err (n : Nat) : (setLine n s).err = s.err := rfl
@[simp] theorem setLine_sticky (n : Nat) : (setLine n s).sticky = s.sticky := rfl
@[simp] theorem setLine_arg (n : Nat) : (setLine n s).arg = s.arg := rfl
@[simp] theorem setLine_res (n : Nat) : (setLine n s).res = s.res := rfl
@[simp] theorem setLine_acc (n : Nat) : (setLine n s).acc = s.acc := rfl
@[simp] theorem setLine_ibuf (n : Nat) : (setLine n s).ibuf = s.ibuf := rfl
@[simp] theorem setLine_ibufLen (n : Nat) : (setLine n s).ibufLen = s.ibufLen := rfl
@[simp] theorem setLine_obuf (n : Nat) : (setLine n s).obuf = s.obuf := rfl
@[simp] theorem setLine_obufLen (n : Nat) : (setLine n s).obufLen = s.obufLen := rfl
@[simp] theorem setLine_errSym (n : Nat) : (setLine n s).errSym = s.errSym := rfl
@[simp] theorem setLine_errPos (n : Nat) : (setLine n s).errPos = s.errPos := rfl
@[simp] theorem setLine_host (n : Nat) : (setLine n s).host = { s.host with line := n } := rfl

@[simp] theorem setHalted_cmdLast : (setHalted s).cmdLast = s.cmdLast := rfl
@[simp] theorem setHalted_err : (setHalted s).err = s.err := rfl
@[simp] theorem setHalted_sticky : (setHalted s).sticky = s.sticky := rfl
@[simp] theorem setHalted_arg : (setHalted s).arg = s.arg := rfl
@[simp] theorem setHalted_res : (setHalted s).res = s.res := rfl
@[simp] theorem setHalted_acc : (setHalted s).acc = s.acc := rfl
@[simp] theorem setHalted_ibuf : (setHalted s).ibuf = s.ibuf := rfl
@[simp] theorem setHalted_ibufLen : (setHalted s).ibufLen = s.ibufLen := rfl
@[simp] theorem setHalted_obuf : (setHalted s).obuf = s.obuf := rfl
@[simp] theorem setHalted_obufLen : (setHalted s).obufLen = s.obufLen := rfl
@[simp] theorem setHalted_errSym : (setHalted s).errSym = s.errSym := rfl
@[simp] theorem setHalted_errPos : (setHalted s).errPos = s.errPos := rfl
@[simp] theorem setHalted_host : (setHalted s).host = { s.host with halted := true } := rfl

end

end Sys2Proof.Machine
end

