-- ==== Sys2Proof/Laws/Text.lean ====
section
/-! SUPPORT. Buffers and texts: what `setOut` and `zeroFilled` lay out, and how long texts are. -/

namespace Sys2Proof.Machine

theorem zeroFilled_get (t : List Byte) (i : Nat) (h : i < 64) : (zeroFilled t)[i] = t.getD i 0 := by
  simp only [zeroFilled, Vector.getElem_mk, List.getElem_toArray, List.getElem_take]
  rcases Nat.lt_or_ge i t.length with h' | h'
  · simp [List.getElem_append_left h', List.getD_eq_getElem?_getD, h']
  · rw [List.getElem_append_right h', List.getElem_replicate, List.getD_eq_default _ _ h']

theorem zeroFilled_toList (t : List Byte) (h : t.length ≤ 64) :
    (zeroFilled t).toList.take t.length = t := by
  simp [zeroFilled, List.take_take, h]

theorem inputText_length (s : State) : (inputText s).length ≤ 64 := by
  simp [inputText]

theorem normChars_length (l : List Byte) : (normChars l).length ≤ l.length := by
  simp only [normChars, List.length_map]
  exact (List.length_filter_le _ _).trans (by simp)

theorem outputText_setOut (t : List Byte) (s : State) (h : t.length ≤ 64) : outputText (setOut t s) = t := by
  have : (BitVec.ofNat 7 t.length).toNat = t.length := by
    rw [BitVec.toNat_ofNat]; omega
  simp only [outputText, setOut_obuf, setOut_obufLen, this, zeroFilled_toList t h]

theorem firstBad_lt (t : List Byte) (i : Nat) (h : firstBad t = some i) : i < t.length := by
  obtain ⟨h', -⟩ := List.findIdx?_eq_some_iff_getElem.1 h
  exact h'

end Sys2Proof.Machine
end

