-- ==== Sys2Proof/Laws/Codec.lean ====
section
/-! SUPPORT. The permutation's bound, the digits of a number and the length of a code; the alphabet's two directions; how the folds meet `++`. -/

namespace Sys2Proof.Machine

theorem mask_lt (n : Nat) : mask n < 2 ^ 35 := Nat.mod_lt _ (by decide)
theorem unmask_lt (n : Nat) : unmask n < 2 ^ 35 := Nat.mod_lt _ (by decide)

theorem mask_eq (n : Nat) : mask n = 5777025351 * n % 2 ^ 35 := by
  rw [mask, coprime, maxNumber]; norm_num
theorem unmask_eq (n : Nat) : unmask n = 1393193079 * n % 2 ^ 35 := by
  rw [unmask, mulinv, maxNumber]; norm_num

theorem toDigitsLoop_acc (fuel h : Nat) (ds : List Digit) :
    toDigitsLoop fuel h ds = toDigitsLoop fuel h [] ++ ds := by
  induction fuel generalizing h ds with
  | zero => simp [toDigitsLoop]
  | succ n ih =>
    simp only [toDigitsLoop]
    split_ifs
    · simp
    · rw [ih (h / 32) (_ :: ds), ih (h / 32) [_]]; simp

theorem toDigitsLoop_fuel (fuel h : Nat) (hf : h.log2 < fuel) :
    toDigitsLoop fuel h [] = toDigits h := by
  induction h using Nat.strong_induction_on generalizing fuel with
  | _ h ih =>
    obtain ⟨n, rfl⟩ : ∃ n, fuel = n + 1 := ⟨fuel - 1, by omega⟩
    by_cases h0 : h = 0
    · simp [toDigits, toDigitsLoop, h0]
    · have hlt : h / 32 < h := by omega
      have key : ∀ m, h.log2 ≤ m → toDigitsLoop m (h / 32) [] = toDigits (h / 32) := by
        intro m hm
        by_cases hz : h / 32 = 0
        · rw [hz]; cases m <;> simp [toDigits, toDigitsLoop]
        · refine ih _ hlt m (lt_of_lt_of_le ?_ hm)
          rw [Nat.log2_lt hz]
          have := Nat.lt_log2_self (n := h)
          have hp : 1 ≤ h.log2 := by
            rw [Nat.le_log2 h0]; omega
          omega
      have e : ∀ m, h.log2 ≤ m → toDigitsLoop (m + 1) h [] = toDigits (h / 32) ++ [BitVec.ofNat 5 (h % 32)] := by
        intro m hm
        simp only [toDigitsLoop, h0, if_false]
        rw [toDigitsLoop_acc, key m hm]
      rw [e n (by omega), show toDigits h = toDigitsLoop (h.log2 + 1) h [] from rfl, e h.log2 le_rfl]

theorem toDigits_zero : toDigits 0 = [] := rfl

theorem toDigits_pos (h : Nat) (h0 : h ≠ 0) :
    toDigits h = toDigits (h / 32) ++ [BitVec.ofNat 5 (h % 32)] := by
  have hlt : (h / 32).log2 < h.log2 + 1 - 1 + 1 := by
    by_cases hz : h / 32 = 0
    · rw [hz]; simp
    · have := (Nat.log2_lt hz (k := h.log2 + 1)).2 (by have := Nat.lt_log2_self (n := h); omega)
      omega
  unfold toDigits
  simp only [toDigitsLoop, h0, if_false]
  rw [toDigitsLoop_acc]
  by_cases hz : h / 32 = 0
  · rw [hz]; cases h.log2 <;> simp [toDigitsLoop]
  · congr 1
    refine toDigitsLoop_fuel _ _ ?_
    rw [Nat.log2_lt hz]
    have := Nat.lt_log2_self (n := h)
    have hp : 1 ≤ h.log2 := by rw [Nat.le_log2 h0]; omega
    omega

theorem toDigits_length_le (k h : Nat) (hk : h < 32 ^ k) : (toDigits h).length ≤ k := by
  induction k generalizing h with
  | zero => obtain rfl : h = 0 := by simpa using hk
            simp [toDigits_zero]
  | succ k ih =>
    by_cases h0 : h = 0
    · simp [h0, toDigits_zero]
    · rw [toDigits_pos h h0, List.length_append, List.length_singleton]
      have := ih (h / 32) (by rw [Nat.div_lt_iff_lt_mul (by decide)]; rwa [← pow_succ])
      omega

theorem bodyDigits_length (n : Nat) : 5 ≤ (bodyDigits n).length ∧ (bodyDigits n).length ≤ 7 := by
  have := toDigits_length_le 7 (mask n) (lt_of_lt_of_eq (mask_lt n) (by norm_num))
  simp only [bodyDigits, padDigits, padMin, List.length_append, List.length_replicate]
  omega

theorem render_length (ds : List Digit) (h : 4 ≤ ds.length) : (render ds).length = ds.length + 1 := by
  simp only [render, sepPos, List.length_append, List.length_take, List.length_drop, List.length_map, List.length_singleton]
  omega

theorem encodeCode_length (n : Nat) : (encodeCode n).length = (bodyDigits n).length + 2 := by
  have h := bodyDigits_length n
  have e : (bodyDigits n ++ [checksum (bodyDigits n)]).length = (bodyDigits n).length + 1 := by
    rw [List.length_append, List.length_singleton]
  rw [encodeCode, render_length _ (by omega), e]

theorem digitOf_symbolOf (d : Digit) : digitOf (symbolOf d) = some d := by
  revert d; decide +kernel

theorem symbolOf_of_digitOf (c : Byte) (d : Digit) (h : digitOf c = some d) : symbolOf d = c := by
  have hall : ∀ c : Byte, (digitOf c).all (fun d => symbolOf d == c) = true := by decide +kernel
  simpa [h] using hall c

theorem checksum_append (ds es : List Digit) : checksum (ds ++ es) = es.foldl csStep (checksum ds) := by
  rw [checksum, List.foldl_append]; rfl

theorem fromDigits_append_singleton (ds : List Digit) (d : Digit) :
    fromDigits (ds ++ [d]) = fromDigits ds * 32 + d.toNat := by
  rw [fromDigits, List.foldl_append]; rfl

end Sys2Proof.Machine
end

