-- ==== Sys2Proof/Laws/Exec.lean ====
section
/-! SUPPORT. What the commands can do: every one answers a next state, and that state is `finish` over one of five updates. Proofs over all commands cite `exec_next` and unfold no meaning. -/

namespace Sys2Proof.Machine

theorem exec_next (i : Instr) (s : State) : ∃ code sym pos s1, exec i s = .next (finish code sym pos s1) ∧ pos ≤ 64 ∧
    (s1 = s ∨ (∃ v < 2 ^ 35, s1 = setRes v s) ∨ (∃ d, s1 = setAcc d s) ∨
      ∃ t : List Byte, t.length ≤ 64 ∧ (s1 = setOut t s ∨ ∃ v < 2 ^ 35, s1 = setRes v (setOut t s))) := by
  have hn : (normChars (inputText s)).length ≤ 64 := (normChars_length _).trans (inputText_length s)
  cases i <;> simp only [exec]
  case nop => exact ⟨_, _, _, _, rfl, by decide, .inl rfl⟩
  case symbolOf =>
    unfold execSymbolOf
    split_ifs
    · exact ⟨_, _, _, _, rfl, by decide, .inl rfl⟩
    · exact ⟨_, _, _, _, rfl, by decide, .inr (.inl ⟨_, by omega, rfl⟩)⟩
  case digitOf =>
    unfold execDigitOf
    split_ifs
    · exact ⟨_, _, _, _, rfl, by decide, .inl rfl⟩
    · split
      · exact ⟨_, _, _, _, rfl, by decide, .inl rfl⟩
      · exact ⟨_, _, _, _, rfl, by decide, .inr (.inl ⟨_, by omega, rfl⟩)⟩
  case normalize =>
    unfold execNormalize
    dsimp only
    split
    · rename_i i h
      exact ⟨_, _, _, _, rfl, by have := firstBad_lt _ _ h; omega, .inr (.inr (.inr ⟨_, hn, .inl rfl⟩))⟩
    · exact ⟨_, _, _, _, rfl, by decide, .inr (.inr (.inr ⟨_, hn, .inl rfl⟩))⟩
  case mask => exact ⟨_, _, _, _, rfl, by decide, .inr (.inl ⟨_, mask_lt _, rfl⟩)⟩
  case unmask => exact ⟨_, _, _, _, rfl, by decide, .inr (.inl ⟨_, unmask_lt _, rfl⟩)⟩
  case csumClear => exact ⟨_, _, _, _, rfl, by decide, .inr (.inr (.inl ⟨_, rfl⟩))⟩
  case csumStep =>
    unfold execCsumStep
    split_ifs
    · exact ⟨_, _, _, _, rfl, by decide, .inl rfl⟩
    · exact ⟨_, _, _, _, rfl, by decide, .inr (.inr (.inl ⟨_, rfl⟩))⟩
  case csumVerify =>
    unfold execCsumVerify
    split_ifs
    · exact ⟨_, _, _, _, rfl, by decide, .inl rfl⟩
    · exact ⟨_, _, _, _, rfl, by decide, .inr (.inl ⟨1, by decide, rfl⟩)⟩
  case encode =>
    unfold execEncode
    split_ifs
    · exact ⟨_, _, _, _, rfl, by decide, .inl rfl⟩
    · refine ⟨_, _, _, _, rfl, by decide, .inr (.inr (.inr ⟨_, ?_, .inl rfl⟩))⟩
      have := bodyDigits_length (argNat s)
      rw [encodeCode_length]; omega
  case decode =>
    unfold execDecode
    dsimp only
    split
    · rename_i i h
      exact ⟨_, _, _, _, rfl, by have := firstBad_lt _ _ h; omega, .inr (.inr (.inr ⟨_, hn, .inl rfl⟩))⟩
    · split_ifs
      · exact ⟨_, _, _, _, rfl, by omega, .inr (.inr (.inr ⟨_, hn, .inl rfl⟩))⟩
      · exact ⟨_, _, _, _, rfl, by omega, .inr (.inr (.inr ⟨_, hn, .inl rfl⟩))⟩
      · exact ⟨_, _, _, _, rfl, by decide, .inr (.inr (.inr ⟨_, hn, .inr ⟨_, unmask_lt _, rfl⟩⟩))⟩

/-! Each command's own effect, one equation per case of its rule. -/

theorem exec_nop (s : State) : exec .nop s = .next (finish .none 0 0 s) := rfl

theorem exec_symbolOf_of_lt (s : State) (h : argNat s < 32) :
    exec .symbolOf s = .next (finish .none 0 0 (setRes (symbolOf (BitVec.ofNat 5 (argNat s))).toNat s)) := by
  simp only [exec, execSymbolOf, if_neg (Nat.not_le.2 h), succeed]

theorem exec_symbolOf_of_ge (s : State) (h : 32 ≤ argNat s) :
    exec .symbolOf s = .next (finish .operandRange 0 0 s) := by
  simp only [exec, execSymbolOf, if_pos h, raise]

theorem exec_digitOf_of_ge (s : State) (h : 256 ≤ argNat s) :
    exec .digitOf s = .next (finish .operandRange 0 0 s) := by
  simp only [exec, execDigitOf, if_pos h, raise]

theorem exec_digitOf_of_some (s : State) (d : Digit) (h : argNat s < 256) (hd : digitOf (BitVec.ofNat 8 (argNat s)) = some d) :
    exec .digitOf s = .next (finish .none 0 0 (setRes d.toNat s)) := by
  simp only [exec, execDigitOf, if_neg (Nat.not_le.2 h), hd, succeed]

theorem exec_digitOf_of_none (s : State) (h : argNat s < 256) (hd : digitOf (BitVec.ofNat 8 (argNat s)) = none) :
    exec .digitOf s = .next (finish .invalidCharacter (BitVec.ofNat 8 (argNat s)) 0 s) := by
  simp only [exec, execDigitOf, if_neg (Nat.not_le.2 h), hd, raise]

theorem exec_normalize_of_none (s : State) (h : firstBad (normChars (inputText s)) = none) :
    exec .normalize s = .next (finish .none 0 0 (setOut (normChars (inputText s)) s)) := by
  simp only [exec, execNormalize, h, succeed]

theorem exec_normalize_of_some (s : State) (i : Nat) (h : firstBad (normChars (inputText s)) = some i) :
    exec .normalize s = .next (finish .invalidCharacter ((normChars (inputText s)).getD i 0) i
      (setOut (normChars (inputText s)) s)) := by
  simp only [exec, execNormalize, h, raise]

theorem exec_mask (s : State) : exec .mask s = .next (finish .none 0 0 (setRes (mask (argNat s)) s)) := rfl

theorem exec_unmask (s : State) : exec .unmask s = .next (finish .none 0 0 (setRes (unmask (argNat s)) s)) := rfl

theorem exec_csumClear (s : State) : exec .csumClear s = .next (finish .none 0 0 (setAcc 0 s)) := rfl

theorem exec_csumStep_of_lt (s : State) (h : argNat s < 32) :
    exec .csumStep s = .next (finish .none 0 0 (setAcc (csStep s.acc (BitVec.ofNat 5 (argNat s))) s)) := by
  simp only [exec, execCsumStep, if_neg (Nat.not_le.2 h), succeed]

theorem exec_csumStep_of_ge (s : State) (h : 32 ≤ argNat s) :
    exec .csumStep s = .next (finish .operandRange 0 0 s) := by
  simp only [exec, execCsumStep, if_pos h, raise]

theorem exec_csumVerify_of_eq (s : State) (h : s.acc = 0) :
    exec .csumVerify s = .next (finish .none 0 0 (setRes 1 s)) := by
  simp only [exec, execCsumVerify, h, ne_eq, not_true_eq_false, if_false, succeed]

theorem exec_csumVerify_of_ne (s : State) (h : s.acc ≠ 0) :
    exec .csumVerify s = .next (finish .checksumMismatch 0 0 s) := by
  simp only [exec, execCsumVerify, if_pos h, raise]

theorem exec_encode_of_mem (s : State) (h : 1 ≤ argNat s) (h' : argNat s < maxNumber) :
    exec .encode s = .next (finish .none 0 0 (setOut (encodeCode (argNat s)) s)) := by
  have : ¬ (argNat s = 0 ∨ maxNumber ≤ argNat s) := by omega
  simp only [exec, execEncode, if_neg this, succeed]

theorem exec_encode_of_not_mem (s : State) (h : argNat s = 0 ∨ maxNumber ≤ argNat s) :
    exec .encode s = .next (finish .outOfRange 0 0 s) := by
  simp only [exec, execEncode, if_pos h, raise]

section
variable (s : State) (t : List Byte) (ht : normChars (inputText s) = t)
include ht

theorem exec_decode_of_bad (i : Nat) (h : firstBad t = some i) :
    exec .decode s = .next (finish .invalidCharacter (t.getD i 0) i (setOut t s)) := by
  simp only [exec, execDecode, ht, h, raise]

theorem exec_decode_of_length (h : firstBad t = none) (hl : t.length < decMinLen ∨ decMaxLen < t.length) :
    exec .decode s = .next (finish .lengthError 0 t.length (setOut t s)) := by
  simp only [exec, execDecode, ht, h, if_pos hl, raise]

theorem exec_decode_of_checksum (h : firstBad t = none) (hl : ¬ (t.length < decMinLen ∨ decMaxLen < t.length))
    (hc : checksum (t.filterMap digitOf) ≠ 0) :
    exec .decode s = .next (finish .checksumMismatch (t.getD (t.length - 1) 0) (t.length - 1) (setOut t s)) := by
  simp only [exec, execDecode, ht, h, if_neg hl, if_pos hc, raise]

theorem exec_decode_of_valid (h : firstBad t = none) (hl : ¬ (t.length < decMinLen ∨ decMaxLen < t.length))
    (hc : checksum (t.filterMap digitOf) = 0) :
    exec .decode s =
      .next (finish .none 0 0 (setRes (unmask (fromDigits (t.filterMap digitOf).dropLast)) (setOut t s))) := by
  simp only [exec, execDecode, ht, h, if_neg hl, hc, ne_eq, not_true_eq_false, if_false, succeed]

end

end Sys2Proof.Machine
end

