-- ==== Sys2Proof/Laws/Step.lean ====
section
/-! SUPPORT. What an access and a step can do: admission, writes, transactions, script lines, and the inversion of `step`. -/

namespace Sys2Proof.Machine

theorem admittedOffset_ok_iff (off : Int) (size o : Nat) :
    admittedOffset off size = .ok o ↔ size = 4 ∧ off % 4 = 0 ∧ 0 ≤ off ∧ off < 0x100 ∧ o = off.toNat := by
  unfold admittedOffset windowSize
  split_ifs with h1 h2 h3 <;> simp <;> omega

theorem admittedOffset_error (off : Int) (size : Nat) (h : ¬ (size = 4 ∧ off % 4 = 0 ∧ 0 ≤ off ∧ off < 0x100)) :
    ∃ r, admittedOffset off size = .error r := by
  cases e : admittedOffset off size with
  | error r => exact ⟨r, rfl⟩
  | ok o => exact absurd ((admittedOffset_ok_iff _ _ _).1 e) (by omega)

theorem admittedOffset_nat (off : Nat) (h : off < 0x100) (h4 : off % 4 = 0) : admittedOffset (off : Int) 4 = .ok off :=
  (admittedOffset_ok_iff _ _ _).2 ⟨rfl, by omega, by omega, by omega, by omega⟩

theorem execute_next (w : Word) (s : State) : ∃ t, execute w s = .next t := by
  unfold execute
  split
  · obtain ⟨_, _, _, _, h, -⟩ := exec_next _ s; exact ⟨_, h⟩
  · exact ⟨_, rfl⟩

theorem busWrite_next (off : Nat) (v : Word) (s : State) : ∃ t, busWrite off v s = .next t := by
  unfold busWrite
  split_ifs <;> first | exact execute_next _ _ | exact ⟨_, rfl⟩

/-- What a write can do to the state (R37): a command, or one of five updates, or nothing. -/
theorem busWrite_cases (off : Nat) (v : Word) (s t : State) (h : busWrite off v s = .next t) :
    (off = 0x00 ∧ execute v (setCmdLast v s) = .next t) ∨ (off = 0x04 ∧ t = writeStatus v s) ∨
      (off = 0x08 ∧ t = setArgLo v s) ∨ (off = 0x0C ∧ t = setArgHi v s) ∨ (off = 0x1C ∧ t = setIbufLen v s) ∨
      (0x40 ≤ off ∧ off ≤ 0x7C ∧ t = setIbufWord (off - 0x40) v s) ∨ t = s := by
  unfold busWrite at h
  split_ifs at h with h0 h1 h2 h3 h4 h5
  · exact .inl ⟨h0, h⟩
  all_goals cases h
  · exact .inr (.inl ⟨h1, rfl⟩)
  · exact .inr (.inr (.inl ⟨h2, rfl⟩))
  · exact .inr (.inr (.inr (.inl ⟨h3, rfl⟩)))
  · exact .inr (.inr (.inr (.inr (.inl ⟨h4, rfl⟩))))
  · exact .inr (.inr (.inr (.inr (.inr (.inl ⟨h5.1, h5.2, rfl⟩)))))
  · exact .inr (.inr (.inr (.inr (.inr (.inr rfl)))))

/-- What executing a word can do: the command it names, or ILLEGAL_COMMAND. -/
theorem execute_cases (w : Word) (s t : State) (h : execute w s = .next t) :
    (∃ i, decode w = .ok i ∧ exec i s = .next t) ∨
      ((∃ e, decode w = .error e) ∧ t = finish .illegalCommand 0 0 s) := by
  unfold execute at h
  split at h
  · rename_i i hi; exact .inl ⟨i, hi, h⟩
  · rename_i e he; cases h; exact .inr ⟨⟨e, he⟩, rfl⟩

/-- What a transaction can do: an admitted write, a change of the host alone (a read), or a reset. -/
theorem transact_cases (x : Transaction) (s t : State) (h : transact x s = .next t) :
    (∃ off size src o, x = .write off size src ∧ admittedOffset off size = .ok o ∧ busWrite o (srcValue src s) s = .next t) ∨
      ((x = .readText ∨ ∃ off size, x = .read off size) ∧ ∃ k, t = setHost k s) ∨ (x = .reset ∧ t = resetUnit s) := by
  cases x with
  | write off size src =>
    simp only [transact] at h
    split at h
    · rename_i o ho; exact .inl ⟨off, size, src, o, rfl, ho, h⟩
    · cases h
  | read off size =>
    simp only [transact] at h
    split at h
    · cases h; exact .inr (.inl ⟨.inr ⟨off, size, rfl⟩, _, rfl⟩)
    · cases h
  | readText => cases h; exact .inr (.inl ⟨.inl rfl, _, rfl⟩)
  | reset => cases h; exact .inr (.inr ⟨rfl, rfl⟩)

/-- What a script line can do: its first transaction, or a change of the host alone. -/
theorem runLine_cases (l : Line) (s t : State) (h : runLine l s = .next t) :
    (expand l = none ∧ ∃ k, t = setHost k s) ∨
      ∃ x rest, expand l = some (x :: rest) ∧ transact x (setPending rest s) = .next t := by
  have expands : ∀ l : Line, (match expand l with
      | some (x :: rest) => transact x (setPending rest s)
      | _ => .refused .noExpansion) = Host.Outcome.next t →
      ∃ x rest, expand l = some (x :: rest) ∧ transact x (setPending rest s) = .next t := by
    intro l h
    split at h
    · rename_i x rest he; exact ⟨x, rest, he, h⟩
    · cases h
  cases l with
  | beq imm label =>
    cases h; refine .inl ⟨rfl, ?_⟩
    split_ifs
    · exact ⟨_, rfl⟩
    · exact ⟨s.host, rfl⟩
  | bne imm label =>
    cases h; refine .inl ⟨rfl, ?_⟩
    split_ifs
    · exact ⟨s.host, rfl⟩
    · exact ⟨_, rfl⟩
  | andi imm => cases h; exact .inl ⟨rfl, _, rfl⟩
  | halt => cases h; exact .inl ⟨rfl, _, rfl⟩
  | wr reg src => exact .inr (expands _ h)
  | rd reg => exact .inr (expands _ h)
  | cmd i => exact .inr (expands _ h)
  | li64 v => exact .inr (expands _ h)
  | lstr text => exact .inr (expands _ h)
  | clrsticky => exact .inr (expands _ h)
  | rd64 => exact .inr (expands _ h)
  | rdstr => exact .inr (expands _ h)

/-- What a step can do: a pending transaction, or the script's next line. -/
theorem step_cases (s t : State) (h : step s = .next t) :
    (∃ x rest, s.host.pending = x :: rest ∧ transact x (setPending rest s) = .next t) ∨
      (s.host.pending = [] ∧ s.host.halted = false ∧
        ∃ l, s.host.script[s.host.line]? = some l ∧ runLine l (setLine (s.host.line + 1) s) = .next t) := by
  unfold step hostStep at h
  split at h
  · rename_i x rest hp; exact .inl ⟨x, rest, hp, h⟩
  · rename_i hp
    split_ifs at h with hh
    split at h
    · rename_i l hl; exact .inr ⟨hp, by simpa using hh, l, hl, h⟩
    · cases h

/-- A step with something pending makes its first transaction. -/
theorem step_pending (s : State) (x : Transaction) (rest : List Transaction) (h : s.host.pending = x :: rest) :
    step s = transact x (setPending rest s) := by
  simp only [step, hostStep, h]

/-- A step with nothing pending runs the script's next line. -/
theorem step_line (s : State) (l : Line) (hp : s.host.pending = []) (hh : s.host.halted = false)
    (hl : s.host.script[s.host.line]? = some l) : step s = runLine l (setLine (s.host.line + 1) s) := by
  simp only [step, hostStep, hp, hh, hl, Bool.false_eq_true, if_false]

/-- An admitted write. -/
theorem step_write (s : State) (off : Nat) (src : Src) (rest : List Transaction) (ho : off < 0x100) (h4 : off % 4 = 0)
    (h : s.host.pending = .write off 4 src :: rest) :
    step s = busWrite off (srcValue src s) (setPending rest s) := by
  rw [step_pending s _ _ h]
  simp only [transact, admittedOffset_nat off ho h4]
  cases src <;> rfl

/-- A read looks at no part of the host. -/
theorem busRead_setHost (off : Nat) (k : HostSide) (s : State) : busRead off (setHost k s) = busRead off s := by
  simp only [busRead, statusWord, errInfoWord, setHost_cmdLast, setHost_sticky, setHost_err, setHost_arg, setHost_res, setHost_acc,
    setHost_ibufLen, setHost_obufLen, setHost_errPos, setHost_errSym, setHost_ibuf, setHost_obuf]

/-- An admitted read. -/
theorem step_read (s : State) (off : Nat) (rest : List Transaction) (ho : off < 0x100) (h4 : off % 4 = 0)
    (h : s.host.pending = .read off 4 :: rest) :
    step s = .next (setScratch (busRead off s) (setPending rest s)) := by
  rw [step_pending s _ _ h]
  simp only [transact, admittedOffset_nat off ho h4, setPending, busRead_setHost]

/-- An admitted write of a command's word. -/
theorem step_command (s : State) (src : Src) (rest : List Transaction) (i : Instr)
    (h : s.host.pending = .write 0x00 4 src :: rest) (hd : decode (srcValue src s) = .ok i) :
    step s = exec i (setCmdLast (srcValue src s) (setPending rest s)) := by
  rw [step_write s 0 src rest (by decide) rfl h]
  simp only [busWrite, if_true, execute, hd]

/-- A line that expands makes the first of its transactions and leaves the rest pending. -/
theorem runLine_expand (l : Line) (s : State) (x : Transaction) (rest : List Transaction) (h : expand l = some (x :: rest)) :
    runLine l s = transact x (setPending rest s) := by
  have expands : ∀ l : Line, expand l = some (x :: rest) → (match expand l with
      | some (x :: rest) => transact x (setPending rest s)
      | _ => .refused .noExpansion) = transact x (setPending rest s) := by
    intro l h; rw [h]
  cases l with
  | beq imm label => cases h
  | bne imm label => cases h
  | andi imm => cases h
  | halt => cases h
  | wr reg src => exact expands _ h
  | rd reg => exact expands _ h
  | cmd i => exact expands _ h
  | li64 v => exact expands _ h
  | lstr text => exact expands _ h
  | clrsticky => exact expands _ h
  | rd64 => exact expands _ h
  | rdstr => exact expands _ h

/-- A run of any machine goes on from the next state of its first step. -/
theorem run_succ_of_next (M : Host.Core) (n : Nat) (s t : M.State) (h : M.step s = .next t) : M.run (n + 1) s = M.run n t := by
  simp only [Host.Core.run, h]

/-- A run of this machine goes on from the next state of its first step. -/
theorem core_run_succ (n : Nat) (s t : State) (h : step s = .next t) : core.run (n + 1) s = core.run n t :=
  run_succ_of_next core n s t h

/-- Two states whose first steps agree have the same runs. -/
theorem core_run_congr (n : Nat) (s t : State) (h : step s = step t) : core.run (n + 1) s = core.run (n + 1) t := by
  have general : ∀ (M : Host.Core) (s t : M.State), M.step s = M.step t → M.run (n + 1) s = M.run (n + 1) t := by
    intro M s t h; simp only [Host.Core.run, h]
  exact general core s t h

end Sys2Proof.Machine
end

