-- ==== Sys2Proof/Laws/Frames.lean ====
section
/-! SUPPORT. How the updates meet the terms of Safety: what `finish` reports, and what each update leaves alone. They are
stated for any value written, so that no proof compares the products of the permutation. -/

namespace Sys2Proof.Safety

open Sys2Proof.Machine

theorem reports_finish (s s1 : State) (c : ErrCode) (y : Byte) (p : Nat) (hp : p ≤ 64) (hs : s1.sticky = s.sticky) :
    Reports s (finish c y p s1) (errNumber c).toNat y.toNat p := by
  refine ⟨rfl, rfl, by rw [finish_errPos, BitVec.toNat_ofNat]; omega, ?_⟩
  rw [finish_sticky, hs]
  generalize s.sticky = b
  revert b
  cases c <;> decide

section
variable (s : State) (c : ErrCode) (y : Byte) (p : Nat)

theorem onlyStatus_finish : OnlyStatus s (finish c y p s) := rfl

theorem onlyRes_setRes (v : Nat) : OnlyRes s (finish c y p (setRes v s)) := rfl

theorem onlyAcc_setAcc (d : Digit) : OnlyAcc s (finish c y p (setAcc d s)) := rfl

theorem onlyOut_setOut (l : List Byte) : OnlyOut s (finish c y p (setOut l s)) := rfl

theorem onlyResOut_setRes_setOut (v : Nat) (l : List Byte) : OnlyResOut s (finish c y p (setRes v (setOut l s))) := rfl

end

/-- The output text is what `setOut` wrote, if that text fits. -/
theorem outIs_setOut (l : List Byte) (h : l.length ≤ 64) (t : State) (ho : t.obuf = zeroFilled l)
    (hl : t.obufLen = BitVec.ofNat 7 l.length) : OutIs t (l.map (·.toNat)) := by
  refine ⟨by rw [hl, BitVec.toNat_ofNat, List.length_map]; omega, fun i => ?_⟩
  rw [ho, zeroFilled_get _ _ i.isLt]
  simp only [List.getD_eq_getElem?_getD, List.getElem?_map]
  cases l[i.val]? <;> rfl

end Sys2Proof.Safety
end

