-- ==== Sys2Proof/Laws/PerInstr.lean ====
section
/-! SUPPORT. Statements about every command as syntax, one lemma per constructor. -/

namespace Sys2Proof.Laws.CommandWord

/-- The command's word decodes to it, and it is its opcode under a zero `MBZ` (spec/30_encoding.md R49). -/
def Statement (i : Instr) : Prop :=
  decode (encode i) = .ok i ∧ mbzOf (encode i) = 0 ∧ opcOf (encode i) = opcodeOf i ∧ (encode i).toNat < 0x0B

theorem nop : Statement .nop := by unfold Statement; decide
theorem symbolOf : Statement .symbolOf := by unfold Statement; decide
theorem digitOf : Statement .digitOf := by unfold Statement; decide
theorem normalize : Statement .normalize := by unfold Statement; decide
theorem mask : Statement .mask := by unfold Statement; decide
theorem unmask : Statement .unmask := by unfold Statement; decide
theorem csumClear : Statement .csumClear := by unfold Statement; decide
theorem csumStep : Statement .csumStep := by unfold Statement; decide
theorem csumVerify : Statement .csumVerify := by unfold Statement; decide
theorem encode : Statement .encode := by unfold Statement; decide
theorem decode : Statement .decode := by unfold Statement; decide

end Sys2Proof.Laws.CommandWord
end

