-- ==== Sys2Proof/Tests/Slice0.lean ====
section
/-! SUPPORT. The model's own tests: ill-formed terms are refused, the spec's words decode, one command on one vector of
spec/95_test_vectors.md at a time, and for each statement with hypotheses a state that meets them. Every expected value is
the spec's. -/

-- Every `decide +kernel` below waits for the kernel to finish what stands before it: one after the other, they wait in one
-- thread and not in one thread each.
set_option Elab.async false

namespace Sys2Proof.Tests

open Sys2Proof Sys2Proof.Machine Sys2Proof.Safety

/-! ## Small states -/

/-- Reset, with `ARG` set. -/
def withArg (n : Nat) : State := { State.reset with arg := BitVec.ofNat 64 n }

/-- Reset, with `ACC` and `ARG` set. -/
def withAcc (a n : Nat) : State := { withArg n with acc := BitVec.ofNat 5 a }

/-- The bytes of a string given by its characters. -/
def bytes (cs : List Char) : List Byte := cs.map fun c => BitVec.ofNat 8 c.toNat

/-- Reset, with the input text set. -/
def withText (cs : List Char) : State :=
  { State.reset with ibuf := zeroFilled (bytes cs), ibufLen := BitVec.ofNat 7 cs.length }

/-- `s`, about to make the transaction `x` and no other. -/
def about (x : Transaction) (s : State) : State := { s with host := { s.host with pending := [x] } }

/-- `s`, with the host's scratch value `t` set. -/
def withScratch (v : Word) (s : State) : State := { s with host := { s.host with scratch := v } }

/-- `s`, about to run a script of one line. -/
def atLine (l : Line) (s : State) : State := { s with host := { s.host with script := [l] } }

/-- The state after the failed DECODE of E5: `ERR` 3, `STICKY` 1, `ERR_INFO` 0x0758. -/
def afterFailure : State := { State.reset with err := 3, sticky := true, errSym := 0x58, errPos := 7 }

/-- What a state reports: `ERR`, `ERR_SYM`, `ERR_POS`, `STICKY`. -/
def report (t : State) : Nat × Nat × Nat × Bool := (t.err.toNat, t.errSym.toNat, t.errPos.toNat, t.sticky)

/-- What holds of the next state, where there is one. -/
def after {α : Type} (o : Host.Outcome State Fault Refusal) (f : State → α) : Option α :=
  match o with
  | .next t => some (f t)
  | .fault _ => none
  | .refused _ => none

/-- The refusal, where there is one. -/
def refusal (o : Host.Outcome State Fault Refusal) : Option Refusal :=
  match o with
  | .next _ => none
  | .fault _ => none
  | .refused r => some r

/-- What `after` computes, as an existence. -/
theorem after_exists {o : Host.Outcome State Fault Refusal} {p : State → Prop} [DecidablePred p]
    (h : after o (fun t => decide (p t)) = some true) : ∃ t, o = .next t ∧ p t := by
  cases o with
  | next t => exact ⟨t, rfl, of_decide_eq_true (Option.some.inj h)⟩
  | fault r => cases h
  | refused r => cases h

/-! ## Well-formedness: one ill-formed term for each check -/

/-- R35: 0x30 is a word of the window, 0x31 is not aligned. -/
theorem test_register_misaligned_is_ill_formed :
    (Reg.plain 0x30).WellFormed = true ∧ (Reg.plain 0x31).WellFormed = false := by decide
theorem test_register_outside_window_is_ill_formed :
    (Reg.plain 0xFC).WellFormed = true ∧ (Reg.plain 0x100).WellFormed = false := by decide
theorem test_write_of_ill_formed_register_is_ill_formed : (Line.wr (.plain 0x31) .scratch).WellFormed 1 = false := by decide
theorem test_read_of_ill_formed_register_is_ill_formed : (Line.rd (.plain 0x100)).WellFormed 1 = false := by decide
/-- R56: a text of 64 bytes fits the buffer, one of 65 does not. -/
theorem test_long_text_is_ill_formed :
    (Line.lstr (List.replicate 64 0x59)).WellFormed 1 = true ∧
    (Line.lstr (List.replicate 65 0x59)).WellFormed 1 = false := by decide
theorem test_branch_past_end_is_ill_formed :
    (Line.beq 0 1).WellFormed 1 = true ∧ (Line.beq 0 2).WellFormed 1 = false ∧ (Line.bne 0 2).WellFormed 1 = false := by
  decide
theorem test_script_with_ill_formed_line_is_ill_formed :
    Script.WellFormed [.cmd .nop, .bne 0 2, .halt] = true ∧ Script.WellFormed [.cmd .nop, .bne 0 4, .halt] = false := by
  decide

/-! ## Decoding: the words of spec/30_encoding.md section 2, bit by bit -/

theorem test_decode_nop : decode 0b00000000000000000000000000000000#32 = .ok .nop := by decide
theorem test_decode_symbolOf : decode 0b00000000000000000000000000000001#32 = .ok .symbolOf := by decide
theorem test_decode_digitOf : decode 0b00000000000000000000000000000010#32 = .ok .digitOf := by decide
theorem test_decode_normalize : decode 0b00000000000000000000000000000011#32 = .ok .normalize := by decide
theorem test_decode_mask : decode 0b00000000000000000000000000000100#32 = .ok .mask := by decide
theorem test_decode_unmask : decode 0b00000000000000000000000000000101#32 = .ok .unmask := by decide
theorem test_decode_csumClear : decode 0b00000000000000000000000000000110#32 = .ok .csumClear := by decide
theorem test_decode_csumStep : decode 0b00000000000000000000000000000111#32 = .ok .csumStep := by decide
theorem test_decode_csumVerify : decode 0b00000000000000000000000000001000#32 = .ok .csumVerify := by decide
theorem test_decode_encode : decode 0b00000000000000000000000000001001#32 = .ok .encode := by decide
theorem test_decode_decode : decode 0b00000000000000000000000000001010#32 = .ok .decode := by decide

/-- R53: the first reserved opcode, the last, and three words with bits above the opcode (V-CTL, V-BUS row 9). -/
theorem test_decode_rejects_by_name :
    decode 0x0000000B = .error .reservedOpcode ∧ decode 0x000000FF = .error .reservedOpcode ∧
    decode 0x00000100 = .error .mbzNotZero ∧ decode 0x80000009 = .error .mbzNotZero ∧
    decode 0x12345601 = .error .mbzNotZero := by decide

theorem test_decodeTableWord :
    decodeTableWord 32 9 = some .encode ∧ decodeTableWord 8 0x10A = some .decode ∧ decodeTableWord 32 11 = none ∧
    decodeTableWord 40 9 = none := by decide

/-- The word that `withFetchWord` places is the next command: DECODE of an empty text (E7). -/
theorem test_step_runs_fetch_word :
    after (step (State.reset.withFetchWord 32 10)) (fun t => (t.cmdLast.toNat, report t)) = some (10, 4, 0, 0, true) := by
  decide +kernel

/-! ## The commands, on vectors of spec/95_test_vectors.md -/

/-- V-CTL row 1. -/
theorem test_nop : after (exec .nop afterFailure) report = some (0, 0, 0, true) := by decide +kernel

/-- V-ALPHA: digit 3 is `D`. -/
theorem test_symbolOf : after (exec .symbolOf (withArg 3)) (fun t => (t.res.toNat, report t)) = some (0x44, 0, 0, 0, false) := by
  decide +kernel
/-- V-ALPHA: the range check looks at all 64 bits. -/
theorem test_symbolOf_range :
    after (exec .symbolOf (withArg 0xffffffffffffffff)) (fun t => (t.res.toNat, report t)) = some (0, 5, 0, 0, true) := by
  decide +kernel

/-- V-ALPHA: `9` is digit 31. -/
theorem test_digitOf : after (exec .digitOf (withArg 0x39)) (fun t => (t.res.toNat, report t)) = some (31, 0, 0, 0, false) := by
  decide +kernel
/-- V-ALPHA: no case folding, and 0x159 is out of range though its low byte is `Y`. -/
theorem test_digitOf_fails :
    after (exec .digitOf (withArg 0x79)) report = some (2, 0x79, 0, true) ∧
    after (exec .digitOf (withArg 0x159)) report = some (5, 0, 0, true) := by decide +kernel

/-- V-NORM row 4. -/
theorem test_normalize :
    after (exec .normalize (withText ['6', 'l', 'Y', 'E', '-', 'E', 'o', 'F', '4'])) (fun t => (outputText t, report t)) =
      some (bytes ['6', '1', 'Y', 'E', 'E', '0', 'F', '4'], 0, 0, 0, false) := by decide +kernel
/-- V-NORM row 9: the text is written although it has a byte that is no symbol. -/
theorem test_normalize_invalid :
    after (exec .normalize (withText ['A', 'O', 'E', '0', 'U', 'I'])) (fun t => (outputText t, report t)) =
      some (bytes ['A', '0', 'E', '0', 'U', '1'], 2, 0x55, 4, true) := by decide +kernel

/-- V-PERM, and E1. -/
theorem test_mask : after (exec .mask (withArg 123456)) (fun t => t.res.toNat) = some 3352428480 := by decide +kernel
/-- V-PERM, the largest operand. -/
theorem test_mask_wraps : after (exec .mask (withArg 18446744073709551615)) (fun t => t.res.toNat) = some 28582713017 := by
  decide +kernel
/-- V-PERM, and E4. -/
theorem test_unmask : after (exec .unmask (withArg 32816505349)) (fun t => t.res.toNat) = some 83 := by decide +kernel
theorem test_unmask_wraps : after (exec .unmask (withArg 18446744073709551615)) (fun t => t.res.toNat) = some 32966545289 := by
  decide +kernel

/-- R82. -/
theorem test_csumClear : after (exec .csumClear (withAcc 17 3)) (fun t => (t.acc.toNat, report t)) = some (0, 0, 0, 0, false) := by
  decide +kernel
/-- V-CSUM: with the reduction, and with both operands non-zero. -/
theorem test_csumStep :
    after (exec .csumStep (withAcc 0 16)) (fun t => t.acc.toNat) = some 5 ∧
    after (exec .csumStep (withAcc 17 3)) (fun t => t.acc.toNat) = some 1 := by decide +kernel
/-- V-CSUM: a digit out of range leaves `ACC`. -/
theorem test_csumStep_range : after (exec .csumStep (withAcc 7 40)) (fun t => (t.acc.toNat, report t)) = some (7, 5, 0, 0, true) := by
  decide +kernel
/-- V-CSUM: the digits of E2 end in 0, those of E5 in 30. -/
theorem test_csumVerify :
    after (exec .csumVerify (withAcc 0 0)) (fun t => (t.res.toNat, report t)) = some (1, 0, 0, 0, false) ∧
    after (exec .csumVerify (withAcc 30 0)) (fun t => (t.res.toNat, report t)) = some (0, 3, 0, 0, true) := by decide +kernel

/-- E1, and the padded code of V-ENC row 8. -/
theorem test_encode :
    after (exec .encode (withArg 123456)) outputText = some (bytes ['D', 'D', '7', 'D', '-', '9', '6', 'Y', 'Y']) ∧
    after (exec .encode (withArg 1393193079)) outputText = some (bytes ['Y', 'Y', 'Y', 'Y', '-', 'B', 'N']) := by
  decide +kernel
/-- E8: `OUT_OF_RANGE`, and no output. -/
theorem test_encode_range :
    after (exec .encode (withArg 34359738368)) (fun t => (outputText t, report t)) = some ([], 1, 0, 0, true) := by
  decide +kernel

/-- E3. -/
theorem test_decode :
    after (exec .decode (withText ['d', 'd', '7', 'd', '9', '6', 'y', 'y'])) (fun t => (t.res.toNat, outputText t)) =
      some (123456, bytes ['D', 'D', '7', 'D', '9', '6', 'Y', 'Y']) := by decide +kernel
/-- E5, E6, and V-DEC `DD7D 96YY`: nine bytes, but the character check comes first. -/
theorem test_decode_fails :
    after (exec .decode (withText ['D', 'D', '7', 'D', '-', '9', '6', 'Y', 'X'])) report = some (3, 0x58, 7, true) ∧
    after (exec .decode (withText ['A', 'O', 'E', '0', 'U', 'I'])) report = some (2, 0x55, 4, true) ∧
    after (exec .decode (withText ['D', 'D', '7', 'D', ' ', '9', '6', 'Y', 'Y'])) report = some (2, 0x20, 4, true) := by
  decide +kernel

/-! ## The register window and the script -/

/-- V-BUS row 3. -/
theorem test_ibufLen_clamps :
    after (step (about (.write 0x1C 4 (.imm 0xFFFFFFFF)) State.reset)) (fun t => busRead 0x1C t) = some 0x40 := by
  decide +kernel
/-- V-BUS row 2. -/
theorem test_arg_halves :
    after (step (about (.write 0x08 4 (.imm 5)) (withArg 0x0123456789ABCDEF))) (fun t => (busRead 0x08 t, busRead 0x0C t)) =
      some (5, 0x01234567) := by decide +kernel
/-- V-BUS row 4. -/
theorem test_ibuf_packing :
    after (step (about (.write 0x7C 4 (.imm 0xAABBCCDD)) State.reset)) (fun t => (t.ibuf[60], t.ibuf[63], busRead 0x7C t)) =
      some (0xDD, 0xAA, 0xAABBCCDD) := by decide +kernel
/-- V-BUS row 7: `ERR` is read-only, bit 8 clears `STICKY`. -/
theorem test_status_write :
    after (step (about (.write 0x04 4 (.imm 0xFFFFFEFF)) afterFailure)) (fun t => busRead 0x04 t) = some 0x103 ∧
    after (step (about (.write 0x04 4 (.imm 0x00000100)) afterFailure)) (fun t => busRead 0x04 t) = some 0x003 := by
  decide +kernel
/-- V-BUS rows 5, 6: writes that are ignored. -/
theorem test_ignored_writes :
    after (step (about (.write 0x10 4 (.imm 1)) State.reset)) (fun t => busRead 0x10 t) = some 0 ∧
    after (step (about (.write 0xC0 4 (.imm 7)) State.reset)) (fun t => busRead 0xC0 t) = some 0 := by decide +kernel
/-- V-BUS row 9, V-CTL: an illegal word reads back whole and clears the old payload. -/
theorem test_illegal_word :
    after (step (about (.write 0x00 4 (.imm 0x12345601)) afterFailure)) (fun t => (busRead 0x00 t, busRead 0x04 t, busRead 0x24 t)) =
      some (0x12345601, 0x106, 0) := by decide +kernel
/-- P5: `ERR_INFO` reads 0x0758. -/
theorem test_errInfo_reads : after (step (about (.read 0x24 4) afterFailure)) (fun t => t.host.scratch) = some 0x758 := by
  decide +kernel
/-- R38: each wrong shape is refused by name. -/
theorem test_wrong_shapes_are_refused :
    refusal (step (about (.write 0x08 2 (.imm 1)) State.reset)) = some .accessNotFourBytes ∧
    refusal (step (about (.read 0x06 4) State.reset)) = some .accessMisaligned ∧
    refusal (step (about (.read 0x100 4) State.reset)) = some .accessOutsideWindow ∧
    refusal (step (about (.read (-4) 4) State.reset)) = some .accessOutsideWindow := by decide +kernel
/-- R118: no host access, no step; a step after `halt`; R56: a text too long for the buffer. -/
theorem test_nothing_to_do_is_refused :
    refusal (step State.reset) = some .noHostAccess ∧
    refusal (step { State.reset with host := { HostSide.idle with halted := true } }) = some .hostHalted ∧
    refusal (step (atLine (.lstr (List.replicate 65 0x59)) State.reset)) = some .noExpansion := by decide +kernel
/-- R112: reset between commands. -/
theorem test_reset_clears :
    after (step (about .reset { afterFailure with arg := 9, acc := 3 })) (fun t => { t with host := HostSide.idle }) =
      some State.reset := by decide +kernel
/-- P2: the accesses of `lstr "6lYE-EoF4"`. -/
theorem test_lstr_expansion :
    expand (.lstr (bytes ['6', 'l', 'Y', 'E', '-', 'E', 'o', 'F', '4'])) =
      some [.write 0x40 4 (.imm 0x45596C36), .write 0x44 4 (.imm 0x466F452D), .write 0x48 4 (.imm 0x00000034),
        .write 0x1C 4 (.imm 9)] := by decide +kernel
/-- P5: `rdstr` reads `OBUF_LEN`, then as many words as the text fills. -/
theorem test_rdstr_reads :
    after (step (atLine .rdstr { State.reset with obufLen := 8 })) (fun t => (t.host.scratch, t.host.pending)) =
      some (8, [.read 0x80 4, .read 0x84 4]) := by decide +kernel
/-- P1: `andi 0xF` on a status word, and `bne 0` not taken on 0. -/
theorem test_andi : after (step (atLine (.andi 0xF) { State.reset with host := { HostSide.idle with scratch := 0x106 } }))
    (fun t => t.host.scratch) = some 6 := by decide +kernel
theorem test_bne : after (step (atLine (.bne 0 7) State.reset)) (fun t => t.host.line) = some 1 := by decide +kernel
theorem test_beq : after (step (atLine (.beq 0 7) State.reset)) (fun t => t.host.line) = some 7 := by decide +kernel

/-! ## Witnesses: states and operands that meet the hypotheses of each statement, clause by clause -/

theorem test_witness_CommandWordsAndCommandsAgree : Instr.decode.WellFormed = true ∧ Instr.nop.WellFormed = true := by decide

theorem test_witness_IllegalWordOnlyReports :
    (AtAccess (about (.write 0 4 (.imm 0x100)) State.reset) (.write 0x00 4 (.imm 0x100)) [] ∧
      (srcValue (.imm 0x100) State.reset).toNat / 2 ^ 8 ≠ 0) ∧
    (AtAccess (about (.write 0 4 .scratch) (withScratch 0x0B State.reset)) (.write 0x00 4 .scratch) [] ∧
      0x0B ≤ (srcValue .scratch (about (.write 0 4 .scratch) (withScratch 0x0B State.reset))).toNat % 2 ^ 8) :=
  ⟨⟨rfl, by decide⟩, rfl, by decide⟩

theorem test_witness_StepRunsTheDecodedCommand :
    decode 0x0A = .ok .decode ∧ AtAccess (about (.write 0 4 (.imm 0x0A)) State.reset) (.write 0x00 4 (.imm 0x0A)) [] ∧
    decode 0 = .ok .nop ∧ AtAccess (about (.write 0 4 .scratch) State.reset) (.write 0x00 4 .scratch) [] ∧
    State.reset.host.scratch = 0 ∧ AtLine (atLine (.cmd .decode) State.reset) (.cmd .decode) := by
  refine ⟨by decide, rfl, by decide, rfl, rfl, rfl, rfl, rfl⟩

theorem test_witness_SymbolOfGivesTheSymbol : (withArg 31).arg.toNat < 32 ∧ 32 ≤ (withArg 32).arg.toNat := by decide

theorem test_witness_DigitOfGivesTheDigit :
    (0 < 32 ∧ (withArg 0x59).arg.toNat = symbolCode 0) ∧ (31 < 32 ∧ (withArg 0x39).arg.toNat = symbolCode 31) ∧
    ((withArg 0).arg.toNat < 256 ∧ (withArg 0).arg.toNat ∉ symbolCodes) ∧
    ((withArg 255).arg.toNat < 256 ∧ (withArg 255).arg.toNat ∉ symbolCodes) ∧ 256 ≤ (withArg 256).arg.toNat := by decide

/-- The texts `D-y`, the empty text, and `dU` (V-NORM: `U` is no symbol). -/
theorem test_witness_NormalizeWritesTheNormalizedText :
    (∀ c ∈ normalText (withText ['D', '-', 'y']), c.toNat ∈ symbolCodes) ∧
    (∀ c ∈ normalText (withText []), c.toNat ∈ symbolCodes) ∧
    normalText (withText ['d', 'U']) = bytes ['D'] ++ 0x55 :: [] ∧ (∀ b ∈ bytes ['D'], b.toNat ∈ symbolCodes) ∧
    (0x55 : Byte).toNat ∉ symbolCodes := by decide +kernel

theorem test_witness_CsumStepFoldsOneDigit : (withAcc 7 31).arg.toNat < 32 ∧ 32 ≤ (withAcc 7 32).arg.toNat := by decide

theorem test_witness_CsumVerifyTestsTheAccumulator : (withAcc 0 0).acc.toNat = 0 ∧ (withAcc 1 0).acc.toNat ≠ 0 := by decide

theorem test_witness_EncodeWritesTheCode :
    (1 ≤ (withArg 1).arg.toNat ∧ (withArg 1).arg.toNat < 2 ^ 35) ∧
    (1 ≤ (withArg 34359738367).arg.toNat ∧ (withArg 34359738367).arg.toNat < 2 ^ 35) ∧
    (withArg 0).arg.toNat = 0 ∧ 2 ^ 35 ≤ (withArg 34359738368).arg.toNat := by decide

/-- V-DEC `YYYYBN` (six symbols) and `DD7D96YY` (eight). -/
theorem test_witness_DecodeGivesTheCodedNumber :
    ((∀ d ∈ [0, 0, 0, 0, 1] ++ [2], d < 32) ∧
      (normalText (withText ['Y', 'Y', 'Y', 'Y', '-', 'B', 'N'])).map (·.toNat) = ([0, 0, 0, 0, 1] ++ [2]).map symbolCode ∧
      6 ≤ ([0, 0, 0, 0, 1] ++ [2]).length ∧ ([0, 0, 0, 0, 1] ++ [2]).length ≤ 8 ∧
      checkNat ([0, 0, 0, 0, 1] ++ [2]) = 0) ∧
    ((∀ d ∈ [3, 3, 29, 3, 31, 30, 0] ++ [0], d < 32) ∧
      (normalText (withText ['d', 'd', '7', 'd', '9', '6', 'y', 'y'])).map (·.toNat) =
        ([3, 3, 29, 3, 31, 30, 0] ++ [0]).map symbolCode ∧
      6 ≤ ([3, 3, 29, 3, 31, 30, 0] ++ [0]).length ∧ ([3, 3, 29, 3, 31, 30, 0] ++ [0]).length ≤ 8 ∧
      checkNat ([3, 3, 29, 3, 31, 30, 0] ++ [0]) = 0) := by decide +kernel

/-- `U`; five and nine symbols; V-DEC `DD7D96YX`. -/
theorem test_witness_DecodeReportsTheFirstFailedCheck :
    (normalText (withText ['u']) = [] ++ 0x55 :: [] ∧ (0x55 : Byte).toNat ∉ symbolCodes) ∧
    ((∀ c ∈ normalText (withText ['Y', 'Y', 'Y', 'Y', 'Y']), c.toNat ∈ symbolCodes) ∧
      (normalText (withText ['Y', 'Y', 'Y', 'Y', 'Y'])).length < 6) ∧
    ((∀ c ∈ normalText (withText ['D', 'D', '7', 'D', '-', '9', '6', 'Y', 'Y', 'Y']), c.toNat ∈ symbolCodes) ∧
      8 < (normalText (withText ['D', 'D', '7', 'D', '-', '9', '6', 'Y', 'Y', 'Y'])).length) ∧
    ((∀ d ∈ [3, 3, 29, 3, 31, 30, 0] ++ [15], d < 32) ∧
      (normalText (withText ['D', 'D', '7', 'D', '9', '6', 'Y', 'X'])).map (·.toNat) =
        ([3, 3, 29, 3, 31, 30, 0] ++ [15]).map symbolCode ∧
      6 ≤ ([3, 3, 29, 3, 31, 30, 0] ++ [15]).length ∧ ([3, 3, 29, 3, 31, 30, 0] ++ [15]).length ≤ 8 ∧
      checkNat ([3, 3, 29, 3, 31, 30, 0] ++ [15]) ≠ 0) := by decide +kernel

theorem test_witness_StickyIsSetByFailureAndClearedByHostOrReset :
    afterFailure.sticky = true ∧ (∃ t, step (about .reset afterFailure) = .next t ∧ t.sticky = false) ∧
    ∃ t, step (about (.write 0x04 4 (.imm 0x100)) afterFailure) = .next t ∧ t.sticky = false :=
  ⟨rfl, after_exists (by decide +kernel), after_exists (by decide +kernel)⟩

/-- A command of each kind: MASK passes, NORMALIZE and SYMBOL_OF fail. -/
theorem test_witness_CommandsKeepTheOtherRegisters :
    (∃ t, exec .mask (withArg 1) = .next t ∧ t.err = 0) ∧ (∃ t, exec .normalize (withText ['U']) = .next t ∧ t.err ≠ 0) ∧
    ∃ t, exec .symbolOf (withArg 32) = .next t ∧ t.err ≠ 0 :=
  ⟨after_exists (by decide +kernel), after_exists (by decide +kernel), after_exists (by decide +kernel)⟩

/-- Two states that differ in `ACC` and in a byte past the text. -/
theorem test_witness_CodecResultsDependOnOperandsOnly :
    ((∃ t, exec .encode (withAcc 0 1) = .next t ∧ t.err = 0) ∧ (∃ t, exec .encode (withAcc 9 1) = .next t ∧ t.err = 0) ∧
      (withAcc 0 1).arg = (withAcc 9 1).arg) ∧
    ((∃ t, exec .decode (withText ['Y', 'Y', 'Y', 'Y', 'Y', 'Y']) = .next t ∧ t.err = 0) ∧
      (∃ t, exec .decode { withText ['Y', 'Y', 'Y', 'Y', 'Y', 'Y', 'U'] with ibufLen := 6 } = .next t ∧ t.err = 0) ∧
      (∃ t, exec .normalize (withText ['Y', 'Y', 'Y', 'Y', 'Y', 'Y']) = .next t ∧ t.err = 0) ∧
      (∃ t, exec .normalize { withText ['Y', 'Y', 'Y', 'Y', 'Y', 'Y', 'U'] with ibufLen := 6 } = .next t ∧ t.err = 0) ∧
      text (withText ['Y', 'Y', 'Y', 'Y', 'Y', 'Y']) =
        text { withText ['Y', 'Y', 'Y', 'Y', 'Y', 'Y', 'U'] with ibufLen := 6 }) :=
  ⟨⟨after_exists (by decide +kernel), after_exists (by decide +kernel), rfl⟩,
    after_exists (by decide +kernel), after_exists (by decide +kernel), after_exists (by decide +kernel),
    after_exists (by decide +kernel), by decide +kernel⟩

theorem test_witness_ResetFromAnyStateClearsTheUnit : AtAccess (about .reset afterFailure) .reset [] := rfl

theorem test_witness_EveryStepKeepsTheInvariant :
    Inv (about (.write 0 4 (.imm 9)) (withArg 1)) ∧
    ∃ t, step (about (.write 0 4 (.imm 9)) (withArg 1)) = .next t ∧ t.obufLen = 9 :=
  ⟨by decide +kernel, after_exists (by decide +kernel)⟩

/-- The last admitted offset, and a wrong shape of each kind. -/
theorem test_witness_OnlyWronglyShapedAccessesAreRefused :
    AtAccess (about (.write 0xFC 4 .scratch) State.reset) (.write 0xFC 4 .scratch) [] ∧ Admitted 0xFC 4 ∧
    AtAccess (about (.read 0x100 4) State.reset) (.read 0x100 4) [] ∧ ¬ Admitted 0x100 4 ∧ ¬ Admitted (-4) 4 ∧
    ¬ Admitted 0x02 4 ∧ ¬ Admitted 0x00 8 := by
  refine ⟨rfl, ?_, rfl, ?_, ?_, ?_, ?_⟩ <;> unfold Admitted <;> decide

theorem test_witness_ReadsReturnTheRegisterMap :
    (0x00 < 0x100 ∧ 0x00 % 4 = 0 ∧ AtAccess (about (.read (0x00 : Nat) 4) State.reset) (.read (0x00 : Nat) 4) []) ∧
    (0xFC < 0x100 ∧ 0xFC % 4 = 0 ∧ AtAccess (about (.read (0xFC : Nat) 4) State.reset) (.read (0xFC : Nat) 4) []) :=
  ⟨⟨by decide, by decide, rfl⟩, by decide, by decide, rfl⟩

/-- The first and last reserved words of both ranges, a read-only register, and the first and last `OBUF` words. -/
theorem test_witness_ReservedAndReadOnlyOffsetsIgnoreWrites :
    (∀ off ∈ [0x28, 0x3C, 0xC0, 0xFC], off % 4 = 0 ∧ ((0x28 ≤ off ∧ off < 0x40) ∨ (0xC0 ≤ off ∧ off < 0x100)) ∧
      AtAccess (about (.read (off : Nat) 4) State.reset) (.read (off : Nat) 4) []) ∧
    (∀ off ∈ [0x80, 0xBC], off % 4 = 0 ∧ (0x80 ≤ off ∧ off < 0xC0) ∧
      AtAccess (about (.write (off : Nat) 4 (.imm 6)) State.reset) (.write (off : Nat) 4 (.imm 6)) []) ∧
    0x10 % 4 = 0 ∧ 0x10 ∈ [0x10, 0x14, 0x18, 0x20, 0x24] ∧
      AtAccess (about (.write (0x10 : Nat) 4 .scratch) State.reset) (.write (0x10 : Nat) 4 .scratch) [] := by
  refine ⟨fun off h => ?_, fun off h => ?_, by decide, by decide, rfl⟩
  · exact ⟨by revert off; decide, by revert off; decide, rfl⟩
  · exact ⟨by revert off; decide, by revert off; decide, rfl⟩

theorem test_witness_StatusReadsErrAndStickyAndClearsSticky :
    AtAccess (about (.read 0x04 4) afterFailure) (.read 0x04 4) [] ∧
    (AtAccess (about (.write 0x04 4 .scratch) (withScratch 0x100 afterFailure)) (.write 0x04 4 .scratch) [] ∧
      (srcValue .scratch (about (.write 0x04 4 .scratch) (withScratch 0x100 afterFailure))).toNat / 2 ^ 8 % 2 = 1) ∧
    (AtAccess (about (.write 0x04 4 (.imm 0xFFFFFEFF)) afterFailure) (.write 0x04 4 (.imm 0xFFFFFEFF)) [] ∧
      (srcValue (.imm 0xFFFFFEFF) afterFailure).toNat / 2 ^ 8 % 2 = 0) ∧
    ∃ t, exec .symbolOf (withArg 32) = .next t ∧ t.err = 5 :=
  ⟨rfl, ⟨rfl, by decide⟩, ⟨rfl, by decide⟩, after_exists (by decide +kernel)⟩

theorem test_witness_ArgHalvesAreIndependent :
    AtAccess (about (.write 0x08 4 .scratch) (withArg 7)) (.write 0x08 4 .scratch) [] ∧
    AtAccess (about (.write 0x0C 4 (.imm 5)) (withArg 7)) (.write 0x0C 4 (.imm 5)) [] ∧
    AtAccess (about (.read 0x08 4) (withArg 7)) (.read 0x08 4) [] ∧
    AtAccess (about (.read 0x0C 4) (withArg 7)) (.read 0x0C 4) [] ∧
    (withArg 0x8000000000000000).arg.getLsbD 63 = true ∧
    ∃ t, exec .mask (withArg 1) = .next t ∧ t.arg = 1 := ⟨rfl, rfl, rfl, rfl, by decide, after_exists (by decide +kernel)⟩

/-- Both commands that write `ACC` change it. -/
theorem test_witness_AccIsWrittenByItsTwoCommandsOnly :
    AtAccess (about (.read 0x18 4) (withAcc 31 0)) (.read 0x18 4) [] ∧
    AtAccess (about (.write 0x18 4 .scratch) (withAcc 31 0)) (.write 0x18 4 .scratch) [] ∧
    (∃ t, exec .csumClear (withAcc 31 0) = .next t ∧ t.acc ≠ (withAcc 31 0).acc) ∧
    ∃ t, exec .csumStep (withAcc 31 0) = .next t ∧ t.acc ≠ (withAcc 31 0).acc :=
  ⟨rfl, rfl, after_exists (by decide +kernel), after_exists (by decide +kernel)⟩

/-- A length past the buffer, the first and the last word, and two buffers that agree on the text only. -/
theorem test_witness_InputBufferHoldsTheInputText :
    AtAccess (about (.write 0x1C 4 .scratch) (withScratch 65 State.reset)) (.write 0x1C 4 .scratch) [] ∧
    AtAccess (about (.read 0x1C 4) State.reset) (.read 0x1C 4) [] ∧
    (0 < 16 ∧ AtAccess (about (.write (0x40 + 4 * 0 : Nat) 4 (.imm 1)) State.reset) (.write (0x40 + 4 * 0 : Nat) 4 (.imm 1)) []) ∧
    (15 < 16 ∧
      AtAccess (about (.write (0x40 + 4 * 15 : Nat) 4 .scratch) State.reset) (.write (0x40 + 4 * 15 : Nat) 4 .scratch) []) ∧
    (∃ t, exec .normalize (withText ['D', 'Y']) = .next t ∧ t.ibufLen = 2) ∧
    ∀ j : Fin 64, j.val < (withText ['D', 'Y']).ibufLen.toNat →
      (withText ['D', 'Y', 'U']).ibuf[j.val] = (withText ['D', 'Y']).ibuf[j.val] :=
  ⟨rfl, rfl, ⟨by decide, rfl⟩, ⟨by decide, rfl⟩, after_exists (by decide +kernel), by decide +kernel⟩

theorem test_witness_BufferWordsAreLittleEndian :
    AtAccess (about (.read (0x40 + 4 * (0 : Fin 16).val : Nat) 4) State.reset) (.read (0x40 + 4 * (0 : Fin 16).val : Nat) 4) [] ∧
    AtAccess (about (.write (0x40 + 4 * (15 : Fin 16).val : Nat) 4 .scratch) State.reset)
      (.write (0x40 + 4 * (15 : Fin 16).val : Nat) 4 .scratch) [] ∧
    AtAccess (about (.read (0x80 + 4 * (15 : Fin 16).val : Nat) 4) State.reset)
      (.read (0x80 + 4 * (15 : Fin 16).val : Nat) 4) [] := ⟨rfl, rfl, rfl⟩

theorem test_witness_OnlyWritesAndResetsChangeTheUnit :
    ((∃ t, step (atLine (.andi 1) State.reset) = .next t ∧ t.host.line = 1) ∧ made (atLine (.andi 1) State.reset) = none) ∧
    ((∃ t, step (about .readText State.reset) = .next t ∧ t.host.line = 0) ∧
      made (about .readText State.reset) = some .readText) ∧
    ((∃ t, step (about (.read 0x24 4) afterFailure) = .next t ∧ t.host.scratch = 0x758) ∧
      made (about (.read 0x24 4) afterFailure) = some (.read 0x24 4)) :=
  ⟨⟨after_exists (by decide +kernel), rfl⟩, ⟨after_exists (by decide +kernel), rfl⟩, after_exists (by decide +kernel), rfl⟩

/-- The first and the last word of the window, the address after it, and for each access one that is answered and one that is
refused. -/
theorem test_witness_WindowIsPlacedAtBase :
    (0x00 < 256 ∧ 0x00 % 4 = 0) ∧ (0xFC < 256 ∧ 0xFC % 4 = 0) ∧ Config.base + 256 ≤ Config.base + 256 ∧
    (∀ addr, addr + 1 = Config.base → addr < Config.base) ∧
    AtAccess (about (.write (((Config.base + 0xFC : Nat) : Int) - Config.base) 4 .scratch) State.reset)
      (.write (((Config.base + 0xFC : Nat) : Int) - Config.base) 4 .scratch) [] ∧
    (AtAccess (about (.read (((Config.base + 0xFC : Nat) : Int) - Config.base) 4) State.reset)
      (.read (((Config.base + 0xFC : Nat) : Int) - Config.base) 4) [] ∧ memRead (Config.base + 0xFC) 4 State.reset = .ok 0) ∧
    (AtAccess (about (.read (((Config.base + 0x100 : Nat) : Int) - Config.base) 4) State.reset)
      (.read (((Config.base + 0x100 : Nat) : Int) - Config.base) 4) [] ∧
      memRead (Config.base + 0x100) 4 State.reset = .error .accessOutsideWindow) := by
  have hoff : ∀ k : Nat, ((Config.base + k : Nat) : Int) - Config.base = k := fun k => by omega
  refine ⟨by decide, by decide, Nat.le_refl _, fun addr h => by omega, rfl, ⟨rfl, ?_⟩, rfl, ?_⟩ <;>
    rw [memRead, hoff] <;> rfl

theorem test_witness_ScriptControlFlowIsTheHostsOwn :
    AtLine (atLine (.beq 0 1) State.reset) (.beq 0 1) ∧ AtLine (atLine (.bne 0 1) State.reset) (.bne 0 1) ∧
    AtLine (atLine (.andi 15) State.reset) (.andi 15) ∧ AtLine (atLine .halt State.reset) .halt ∧
    (State.reset.host.pending = [] ∧ State.reset.host.halted = false ∧
      State.reset.host.script.length ≤ State.reset.host.line) :=
  ⟨⟨rfl, rfl, rfl⟩, ⟨rfl, rfl, rfl⟩, ⟨rfl, rfl, rfl⟩, ⟨rfl, rfl, rfl⟩, rfl, rfl, by decide⟩

theorem test_witness_ScriptLinesExpandToTransactions :
    (AtAccess (about .readText { State.reset with obufLen := 64 }) .readText [] ∧
      ({ State.reset with obufLen := 64 } : State).obufLen.toNat ≤ 64) ∧
    ([] : List Byte).length ≤ 64 ∧ (List.replicate 64 (0x59 : Byte)).length ≤ 64 ∧
    AtLine (atLine .rd64 State.reset) .rd64 ∧ expand .rd64 = some (.read 0x10 4 :: [.read 0x14 4]) :=
  ⟨⟨rfl, by decide⟩, by decide, by decide, ⟨rfl, rfl, rfl⟩, rfl⟩

/-- The empty text and one of 64 bytes; a text of 5 bytes, with bytes missing from its last word and bytes past it. -/
theorem test_witness_LstrLoadsTheText :
    (AtLine (atLine (.lstr []) State.reset) (.lstr []) ∧ ([] : List Byte).length ≤ 64) ∧
    (AtLine (atLine (.lstr (List.replicate 64 0x59)) State.reset) (.lstr (List.replicate 64 0x59)) ∧
      (List.replicate 64 (0x59 : Byte)).length ≤ 64) ∧
    (AtLine (atLine (.lstr (List.replicate 5 0x59)) State.reset) (.lstr (List.replicate 5 0x59)) ∧
      (List.replicate 5 (0x59 : Byte)).length ≤ 7 ∧ 7 < 4 * (((List.replicate 5 (0x59 : Byte)).length + 3) / 4) ∧
      4 * (((List.replicate 5 (0x59 : Byte)).length + 3) / 4) ≤ 8) :=
  ⟨⟨⟨rfl, rfl, rfl⟩, by decide⟩, ⟨⟨rfl, rfl, rfl⟩, by decide⟩, ⟨rfl, rfl, rfl⟩, by decide⟩

/-- V-PERM rows of 1, both ways. -/
theorem test_witness_MaskAndUnmaskAreInverse :
    (withArg 1).arg.toNat < 2 ^ 35 ∧ (withArg 34359738367).arg.toNat < 2 ^ 35 ∧
    (∃ t, exec .mask (withArg 1) = .next t ∧ (withArg 5777025351).arg = t.res) ∧
    (∃ u, exec .unmask (withArg 5777025351) = .next u ∧ u.res = 1) ∧
    (∃ t, exec .unmask (withArg 1) = .next t ∧ (withArg 1393193079).arg = t.res) ∧
    ∃ u, exec .mask (withArg 1393193079) = .next u ∧ u.res = 1 :=
  ⟨by decide, by decide, after_exists (by decide +kernel), after_exists (by decide +kernel), after_exists (by decide +kernel),
    after_exists (by decide +kernel)⟩

/-- The largest power of two below 2^35, and the operand 2^35 + 5 beside 5. -/
theorem test_witness_MaskKeepsTrailingZeros :
    (∃ t, exec .mask (withArg 17179869184) = .next t ∧ t.res = 17179869184) ∧ 0 < (withArg 17179869184).arg.toNat ∧
    (withArg 17179869184).arg.toNat < 2 ^ 35 ∧
    (∃ t, exec .mask (withArg 34359738373) = .next t ∧ t.res = 28885126755) ∧
    (∃ t, exec .mask (withArg 5) = .next t ∧ t.res = 28885126755) ∧
    (withArg 5).arg.toNat = (withArg 34359738373).arg.toNat % 2 ^ 35 :=
  ⟨after_exists (by decide +kernel), by decide, by decide, after_exists (by decide +kernel), after_exists (by decide +kernel),
    by decide⟩

theorem test_witness_StepsFoldTheChecksum :
    let s : State := { withAcc 5 0 with host := { HostSide.idle with
      pending := [.write 0x08 4 (.imm 31), .write 0x00 4 (.imm 7), .reset] } }
    s.arg.toNat < 2 ^ 32 ∧
    s.host.pending = [(31 : Digit)].flatMap (fun d =>
      [Transaction.write 0x08 4 (.imm (d.setWidth 32)), Transaction.write 0x00 4 (.imm 0x00000007)]) ++ [.reset] :=
  ⟨by decide, rfl⟩

/-- V-CSUM `[1, 2]`, changed to `[1, 3]`. -/
theorem test_witness_ChecksumDetectsEverySubstitution : (2 : Digit) ≠ 3 ∧ checksum ([1] ++ 2 :: []) = 0 := by decide

/-- V-CSUM `[1, 2]` at distance 1; at distance 30 a valid sequence with 29 digits between; 30 digits between at distance 31. -/
theorem test_witness_ChecksumDetectsTranspositions :
    ((1 : Digit) ≠ 2 ∧ ([] : List Digit).length + 1 ≤ 30 ∧ checksum ([] ++ 1 :: [] ++ 2 :: []) = 0) ∧
    ((0 : Digit) ≠ 1 ∧ (List.replicate 29 (0 : Digit)).length + 1 ≤ 30 ∧
      checksum ([] ++ 0 :: List.replicate 29 0 ++ 1 :: [2]) = 0) ∧
    (List.replicate 30 (0 : Digit)).length + 1 = 31 := by decide +kernel

/-- V-ENC rows of masked values 32^5 - 1, 32^5 and 32^6. -/
theorem test_witness_CodeLengthFollowsTheMaskedValue :
    ((∃ t, exec .encode (withArg 2599784329) = .next t ∧ t.err = 0) ∧
      5777025351 * (withArg 2599784329).arg.toNat % 2 ^ 35 = 32 ^ 5 - 1) ∧
    ((∃ t, exec .encode (withArg 3992977408) = .next t ∧ t.err = 0) ∧
      5777025351 * (withArg 3992977408).arg.toNat % 2 ^ 35 = 32 ^ 5) ∧
    ((∃ t, exec .encode (withArg 24696061952) = .next t ∧ t.err = 0) ∧
      5777025351 * (withArg 24696061952).arg.toNat % 2 ^ 35 = 32 ^ 6) :=
  ⟨⟨after_exists (by decide +kernel), by decide⟩, ⟨after_exists (by decide +kernel), by decide⟩,
    after_exists (by decide +kernel), by decide⟩

theorem test_witness_NormalizeIsIdempotent :
    (∃ t, exec .normalize (withText ['-', 'o']) = .next t ∧ (withText ['0']).ibuf = t.obuf ∧
      (withText ['0']).ibufLen = t.obufLen) ∧ ∃ t, exec .normalize (withText ['0']) = .next t ∧ t.err = 0 :=
  ⟨after_exists (by decide +kernel), after_exists (by decide +kernel)⟩

/-- E1 and E3: the code comes back in lower case and without its dash. -/
theorem test_witness_DecodeOfEncodeIsTheNumber :
    1 ≤ (withArg 123456).arg.toNat ∧ (withArg 123456).arg.toNat < 2 ^ 35 ∧
    ∃ t, exec .encode (withArg 123456) = .next t ∧
      normalText (withText ['d', 'd', '7', 'd', '9', '6', 'y', 'y']) = (outputText t).filterMap normalByte :=
  ⟨by decide, by decide, after_exists (by decide +kernel)⟩

/-- E5 (the last `Y` typed as `X`) and V-DEC `DD7D-69YY` (`9` and `6` swapped), from `DD7D96YY`. -/
theorem test_witness_DecodeDetectsOneWrongOrSwappedSymbol :
    (∃ t, exec .decode (withText ['D', 'D', '7', 'D', '9', '6', 'Y', 'Y']) = .next t ∧ t.err = 0) ∧
    (text (withText ['D', 'D', '7', 'D', '9', '6', 'Y', 'Y']) = bytes ['D', 'D', '7', 'D', '9', '6', 'Y'] ++ 0x59 :: [] ∧
      text (withText ['D', 'D', '7', 'D', '9', '6', 'Y', 'X']) = bytes ['D', 'D', '7', 'D', '9', '6', 'Y'] ++ 0x58 :: [] ∧
      normalByte 0x59 = some 0x59 ∧ normalByte 0x58 = some 0x58 ∧ (0x59 : Byte) ≠ 0x58 ∧ (0x58 : Byte).toNat ∈ symbolCodes) ∧
    (text (withText ['D', 'D', '7', 'D', '9', '6', 'Y', 'Y']) =
        bytes ['D', 'D', '7', 'D'] ++ 0x39 :: [] ++ 0x36 :: bytes ['Y', 'Y'] ∧
      text (withText ['D', 'D', '7', 'D', '6', '9', 'Y', 'Y']) =
        bytes ['D', 'D', '7', 'D'] ++ 0x36 :: [] ++ 0x39 :: bytes ['Y', 'Y'] ∧
      normalByte 0x39 = some 0x39 ∧ normalByte 0x36 = some 0x36 ∧ (0x39 : Byte) ≠ 0x36) :=
  ⟨after_exists (by decide +kernel), by decide +kernel, by decide +kernel⟩

end Sys2Proof.Tests
end

namespace Sys2Proof.Machine

open Sys2Proof.Safety

/-! What a command writes besides its status, as an update of the state that depends on the command's operands alone: the
layer between the commands' equations and the statements about every command. -/

/-- `Writes i u`: command `i` may end with `finish` over the update `u` (spec/60_exceptions.md R99, spec/10_state.md R27,
R28, R30). -/
inductive Writes : Instr → (State → State) → Prop
  /-- nothing but the status -/
  | status (i : Instr) : Writes i id
  | res (i : Instr) (hi : i ∈ [Instr.symbolOf, .digitOf, .mask, .unmask, .csumVerify]) (v : Nat) : Writes i (setRes v)
  | acc (i : Instr) (hi : i ∈ [Instr.csumClear, .csumStep]) (d : Digit) : Writes i (setAcc d)
  | out (i : Instr) (hi : i ∈ [Instr.normalize, .encode, .decode]) (l : List Byte) : Writes i (setOut l)
  /-- a DECODE that succeeds -/
  | resOut (v : Nat) (l : List Byte) : Writes .decode fun s => setRes v (setOut l s)

/-- Two states with the same operands (`ARG`, `ACC` and the input text): a command makes the same update in both and
reports the same (spec/10_state.md R19, spec/30_encoding.md R50). -/
theorem exec_of_same_operands (i : Instr) (s s' : State) (harg : s'.arg = s.arg) (hacc : s'.acc = s.acc)
    (htext : inputText s' = inputText s) :
    ∃ code sym pos u, Writes i u ∧
      exec i s = .next (finish code sym pos (u s)) ∧ exec i s' = .next (finish code sym pos (u s')) := by
  cases i with
  | nop => exact ⟨_, _, _, _, .status _, rfl, rfl⟩
  | symbolOf =>
    simp only [exec, execSymbolOf, argNat, harg]
    split_ifs
    · exact ⟨_, _, _, _, .status _, rfl, rfl⟩
    · exact ⟨_, _, _, _, .res _ (by decide) _, rfl, rfl⟩
  | digitOf =>
    simp only [exec, execDigitOf, argNat, harg]
    split_ifs
    · exact ⟨_, _, _, _, .status _, rfl, rfl⟩
    · cases digitOf (BitVec.ofNat 8 s.arg.toNat) with
      | none => exact ⟨_, _, _, _, .status _, rfl, rfl⟩
      | some d => exact ⟨_, _, _, _, .res _ (by decide) _, rfl, rfl⟩
  | normalize =>
    simp only [exec, execNormalize, htext]
    cases firstBad (normChars (inputText s)) with
    | none => exact ⟨_, _, _, _, .out _ (by decide) _, rfl, rfl⟩
    | some k => exact ⟨_, _, _, _, .out _ (by decide) _, rfl, rfl⟩
  | mask =>
    simp only [exec, execMask, argNat, harg]
    exact ⟨_, _, _, _, .res _ (by decide) _, rfl, rfl⟩
  | unmask =>
    simp only [exec, execUnmask, argNat, harg]
    exact ⟨_, _, _, _, .res _ (by decide) _, rfl, rfl⟩
  | csumClear => exact ⟨_, _, _, _, .acc _ (by decide) _, rfl, rfl⟩
  | csumStep =>
    simp only [exec, execCsumStep, argNat, harg, hacc]
    split_ifs
    · exact ⟨_, _, _, _, .status _, rfl, rfl⟩
    · exact ⟨_, _, _, _, .acc _ (by decide) _, rfl, rfl⟩
  | csumVerify =>
    simp only [exec, execCsumVerify, hacc]
    split_ifs
    · exact ⟨_, _, _, _, .status _, rfl, rfl⟩
    · exact ⟨_, _, _, _, .res _ (by decide) _, rfl, rfl⟩
  | encode =>
    simp only [exec, execEncode, argNat, harg]
    split_ifs
    · exact ⟨_, _, _, _, .status _, rfl, rfl⟩
    · exact ⟨_, _, _, _, .out _ (by decide) _, rfl, rfl⟩
  | decode =>
    simp only [exec, execDecode, htext]
    cases firstBad (normChars (inputText s)) with
    | some k => exact ⟨_, _, _, _, .out _ (by decide) _, rfl, rfl⟩
    | none =>
      dsimp only
      split_ifs
      · exact ⟨_, _, _, _, .out _ (by decide) _, rfl, rfl⟩
      · exact ⟨_, _, _, _, .out _ (by decide) _, rfl, rfl⟩
      · exact ⟨_, _, _, _, .resOut _ _, rfl, rfl⟩

/-- Every command ends with `finish` over one of its updates. -/
theorem exec_writes (i : Instr) (s t : State) (h : exec i s = .next t) :
    ∃ code sym pos u, Writes i u ∧ t = finish code sym pos (u s) := by
  obtain ⟨code, sym, pos, u, hu, hs, -⟩ := exec_of_same_operands i s s rfl rfl rfl
  exact ⟨code, sym, pos, u, hu, Host.Outcome.next.inj (h.symm.trans hs)⟩

namespace Writes

variable {i : Instr} {u : State → State} (h : Writes i u) (s : State)
include h

theorem arg_eq : (u s).arg = s.arg := by cases h <;> rfl

theorem ibuf_eq : (u s).ibuf = s.ibuf := by cases h <;> rfl

theorem ibufLen_eq : (u s).ibufLen = s.ibufLen := by cases h <;> rfl

theorem sticky_eq : (u s).sticky = s.sticky := by cases h <;> rfl

theorem acc_eq (hi : i ∉ [Instr.csumClear, .csumStep]) : (u s).acc = s.acc := by
  cases h with
  | acc _ hi' => exact absurd hi' hi
  | status | res | out | resOut => rfl

/-- The `ERR` of before is lost. -/
theorem finish_withErr (code : ErrCode) (sym : Byte) (pos : Nat) (e : BitVec 4) :
    finish code sym pos (u { s with err := e }) = finish code sym pos (u s) := by
  cases h <;> rfl

/-- The bytes of `IBUF` pass through. -/
theorem finish_withIbuf (code : ErrCode) (sym : Byte) (pos : Nat) (b : Vector Byte 64) :
    finish code sym pos (u { s with ibuf := b }) = { finish code sym pos (u s) with ibuf := b } := by
  cases h <;> rfl

end Writes

theorem errNumber_le (c : ErrCode) : (errNumber c).toNat ≤ 6 := by cases c <;> decide

/-- `STICKY` after a command, by the number the command leaves in `ERR` (R22). -/
theorem stickyAfter_eq (c : ErrCode) (b : Bool) : stickyAfter c b = (b || decide ((errNumber c).toNat ≠ 0)) := by
  cases c <;> rfl

section
variable {i : Instr} {s t : State} (h : exec i s = .next t)
include h

theorem exec_arg : t.arg = s.arg := by
  obtain ⟨_, _, _, _, hu, rfl⟩ := exec_writes i s t h
  exact hu.arg_eq s

theorem exec_ibuf : t.ibuf = s.ibuf := by
  obtain ⟨_, _, _, _, hu, rfl⟩ := exec_writes i s t h
  exact hu.ibuf_eq s

theorem exec_ibufLen : t.ibufLen = s.ibufLen := by
  obtain ⟨_, _, _, _, hu, rfl⟩ := exec_writes i s t h
  exact hu.ibufLen_eq s

theorem exec_acc (hi : i ∉ [Instr.csumClear, .csumStep]) : t.acc = s.acc := by
  obtain ⟨_, _, _, _, hu, rfl⟩ := exec_writes i s t h
  exact hu.acc_eq s hi

theorem exec_err_le : t.err.toNat ≤ 6 := by
  obtain ⟨code, _, _, _, -, rfl⟩ := exec_writes i s t h
  exact errNumber_le code

theorem exec_sticky : t.sticky = (s.sticky || decide (t.err.toNat ≠ 0)) := by
  obtain ⟨code, _, _, _, hu, rfl⟩ := exec_writes i s t h
  rw [finish_sticky, finish_err, hu.sticky_eq, stickyAfter_eq]

theorem exec_withErr (e : BitVec 4) : exec i { s with err := e } = .next t := by
  obtain ⟨code, sym, pos, u, hu, hs, hs'⟩ := exec_of_same_operands i s { s with err := e } rfl rfl rfl
  rw [hs', hu.finish_withErr, ← hs, h]

theorem exec_withIbuf (b : Vector Byte 64) (htext : inputText { s with ibuf := b } = inputText s) :
    exec i { s with ibuf := b } = .next { t with ibuf := b } := by
  obtain ⟨code, sym, pos, u, hu, hs, hs'⟩ := exec_of_same_operands i s { s with ibuf := b } rfl rfl htext
  obtain rfl : t = finish code sym pos (u s) := Host.Outcome.next.inj (h.symm.trans hs)
  rw [hs', hu.finish_withIbuf]

end

/-- The input text is settled by the bytes below `IBUF_LEN` (R29). -/
theorem inputText_withIbuf (s : State) (b : Vector Byte 64)
    (hb : ∀ j : Fin 64, j.val < s.ibufLen.toNat → b[j.val] = s.ibuf[j.val]) :
    inputText { s with ibuf := b } = inputText s := by
  refine List.ext_getElem (by simp [inputText]) fun j hj _ => ?_
  have hj' : j < s.ibufLen.toNat ∧ j < 64 := by simpa [inputText] using hj
  simpa [inputText] using hb ⟨j, hj'.2⟩ hj'.1

/-! How `STICKY` is lost. -/

theorem execute_keeps_sticky (w : Word) (s t : State) (h : execute w s = .next t) (hs : s.sticky = true) :
    t.sticky = true := by
  obtain ⟨i, -, hi⟩ | ⟨-, rfl⟩ := execute_cases w s t h
  · rw [exec_sticky hi, hs, Bool.true_or]
  · rw [finish_sticky, stickyAfter, hs, Bool.true_or]

/-- A write loses `STICKY` only at `STATUS` and with bit 8 set (R25). -/
theorem busWrite_clears_sticky (off : Nat) (v : Word) (s t : State) (h : busWrite off v s = .next t)
    (hs : s.sticky = true) (ht : t.sticky = false) : off = 0x04 ∧ v.getLsbD 8 = true := by
  obtain ⟨-, he⟩ | ⟨rfl, rfl⟩ | ⟨-, rfl⟩ | ⟨-, rfl⟩ | ⟨-, rfl⟩ | ⟨-, -, rfl⟩ | rfl := busWrite_cases off v s t h
  · exact absurd (execute_keeps_sticky _ _ _ he hs) (by simp [ht])
  · exact ⟨rfl, by simpa [stickyAfterWrite, hs] using ht⟩
  all_goals simp [hs] at ht

theorem transact_clears_sticky (x : Transaction) (s t : State) (h : transact x s = .next t)
    (hs : s.sticky = true) (ht : t.sticky = false) :
    x = .reset ∨ ∃ src, x = .write 0x04 4 src ∧ (srcValue src s).getLsbD 8 = true := by
  obtain ⟨off, size, src, o, rfl, ho, hw⟩ | ⟨-, k, rfl⟩ | ⟨rfl, -⟩ := transact_cases x s t h
  · obtain ⟨rfl, hv⟩ := busWrite_clears_sticky o _ s t hw hs ht
    obtain ⟨rfl, -, h0, -, hoff⟩ := (admittedOffset_ok_iff _ _ _).1 ho
    obtain rfl : off = 4 := by omega
    exact .inr ⟨src, rfl, hv⟩
  · simp [hs] at ht
  · exact .inl rfl

/-- A step changes the host alone, or makes the transaction `made` names, with `t` as it was. -/
theorem step_made (s t : State) (h : step s = .next t) :
    (∃ k, t = setHost k s) ∨
      ∃ x k, made s = some x ∧ k.scratch = s.host.scratch ∧ transact x (setHost k s) = .next t := by
  obtain ⟨x, rest, hp, hx⟩ | ⟨hp, hh, l, hl, hr⟩ := step_cases s t h
  · exact .inr ⟨x, { s.host with pending := rest }, by simp [made, hp], rfl, hx⟩
  · obtain ⟨-, k, rfl⟩ | ⟨x, rest, he, hx⟩ := runLine_cases l _ t hr
    · exact .inl ⟨k, rfl⟩
    · exact .inr ⟨x, { s.host with line := s.host.line + 1, pending := rest }, by simp [made, hp, hh, hl, he], rfl, hx⟩

theorem srcValue_setHost (src : Src) (k : HostSide) (s : State) (hk : k.scratch = s.host.scratch) :
    srcValue src (setHost k s) = srcValue src s := by
  cases src with
  | imm v => rfl
  | scratch => exact hk

theorem step_clears_sticky (s t : State) (h : step s = .next t) (hs : s.sticky = true) (ht : t.sticky = false) :
    made s = some .reset ∨ ∃ src, made s = some (.write 0x04 4 src) ∧ (srcValue src s).getLsbD 8 = true := by
  obtain ⟨k, rfl⟩ | ⟨x, k, hm, hk, hx⟩ := step_made s t h
  · simp [hs] at ht
  · obtain rfl | ⟨src, rfl, hv⟩ := transact_clears_sticky x _ t hx hs ht
    · exact .inl hm
    · exact .inr ⟨src, hm, srcValue_setHost src k s hk ▸ hv⟩

/-! Accesses of one register, and the numbers its words stand for. -/

/-- An admitted read changes `t` alone, to the word the window shows. -/
theorem step_read_of_atAccess {s : State} {off n : Nat} {rest : List Transaction} (h : AtAccess s (.read off 4) rest)
    (ho : off < 0x100) (h4 : off % 4 = 0) (hn : (busRead off s).toNat = n) :
    ∃ t, step s = .next t ∧ OnlyHost s t ∧ t.host.scratch.toNat = n :=
  ⟨_, step_read s off rest ho h4 h, rfl, hn⟩

/-- Two fields side by side in a word, in arithmetic. -/
theorem toNat_append_eq {m n : Nat} (x : BitVec m) (y : BitVec n) : (x ++ y).toNat = x.toNat * 2 ^ n + y.toNat := by
  rw [BitVec.toNat_append, ← Nat.shiftLeft_add_eq_or_of_lt y.isLt, Nat.shiftLeft_eq]

theorem statusWord_toNat (s : State) : (statusWord s).toNat = s.err.toNat + s.sticky.toNat * 2 ^ 8 := by
  simp only [statusWord, toNat_append_eq, BitVec.toNat_ofBool, BitVec.ofNat_eq_ofNat, BitVec.toNat_ofNat]
  omega

theorem getLsbD_eight (v : Word) : v.getLsbD 8 = decide (v.toNat / 2 ^ 8 % 2 = 1) :=
  Nat.testBit_eq_decide_div_mod_eq

theorem writeStatus_of_bit_set (v : Word) (s : State) (hv : v.toNat / 2 ^ 8 % 2 = 1) :
    writeStatus v s = { s with sticky := false } := by
  rw [writeStatus, stickyAfterWrite, getLsbD_eight, decide_eq_true hv, Bool.not_true, Bool.and_false]

theorem writeStatus_of_bit_clear (v : Word) (s : State) (hv : v.toNat / 2 ^ 8 % 2 = 0) : writeStatus v s = s := by
  rw [writeStatus, stickyAfterWrite, getLsbD_eight, decide_eq_false (by omega), Bool.not_false, Bool.and_true]

theorem low_half_toNat (x : DWord) : (x.extractLsb' 0 32).toNat = x.toNat % 2 ^ 32 := by
  rw [BitVec.extractLsb'_toNat, Nat.shiftRight_zero]

theorem high_half_toNat (x : DWord) : (x.extractLsb' 32 32).toNat = x.toNat / 2 ^ 32 := by
  rw [BitVec.extractLsb'_toNat, Nat.shiftRight_eq_div_pow]
  omega

theorem setArgLo_toNat (v : Word) (s : State) : (setArgLo v s).arg.toNat = s.arg.toNat / 2 ^ 32 * 2 ^ 32 + v.toNat := by
  rw [setArgLo_arg, toNat_append_eq, high_half_toNat]

theorem setArgHi_toNat (v : Word) (s : State) : (setArgHi v s).arg.toNat = v.toNat * 2 ^ 32 + s.arg.toNat % 2 ^ 32 := by
  rw [setArgHi_arg, toNat_append_eq, low_half_toNat]

theorem setIbufLen_toNat (v : Word) (s : State) : (setIbufLen v s).ibufLen.toNat = min v.toNat 64 := by
  rw [setIbufLen_ibufLen, BitVec.toNat_ofNat, ibufCap]
  omega

theorem busRead_ibufLen_toNat (s : State) : (busRead 0x1C s).toNat = s.ibufLen.toNat := by
  change (s.ibufLen.setWidth 32).toNat = _
  exact BitVec.toNat_setWidth_of_le (by decide)

theorem busRead_acc_toNat (s : State) : (busRead 0x18 s).toNat = s.acc.toNat := by
  change (s.acc.setWidth 32).toNat = _
  exact BitVec.toNat_setWidth_of_le (by decide)

/-- An access of word `k` of `IBUF` stores at its first byte, `4k` (R37). -/
theorem step_write_ibufWord {s : State} {src : Src} {k : Nat} {rest : List Transaction} (hk : k < 16)
    (h : AtAccess s (.write (0x40 + 4 * k : Nat) 4 src) rest) :
    step s = .next (setIbufWord (4 * k) (srcValue src s) (setPending rest s)) := by
  rw [step_write s _ src rest (by omega) (by omega) h, busWrite, if_neg (by omega), if_neg (by omega), if_neg (by omega),
    if_neg (by omega), if_neg (by omega), if_pos (by omega), Nat.add_sub_cancel_left]

theorem byteOf_toNat (w : Word) (i : Nat) : (byteOf w i).toNat = w.toNat / 2 ^ (8 * i) % 2 ^ 8 := by
  rw [byteOf, BitVec.extractLsb'_toNat, Nat.shiftRight_eq_div_pow]

/-- A stored word is its own four bytes (R41). -/
theorem storeWord_get_of_mem (b : Vector Byte 64) (k j : Nat) (w : Word) (hj : j < 4) (hk : k + j < 64) :
    (storeWord b k w)[k + j] = byteOf w j := by
  simp only [storeWord, Vector.getElem_setIfInBounds]
  interval_cases j <;> simp

/-- A stored word leaves every other byte. -/
theorem storeWord_get_of_not_mem (b : Vector Byte 64) (k i : Nat) (w : Word) (hi : i < 64) (hk : i < k ∨ k + 4 ≤ i) :
    (storeWord b k w)[i] = b[i] := by
  simp only [storeWord, Vector.getElem_setIfInBounds]
  rw [if_neg, if_neg, if_neg, if_neg] <;> omega

end Sys2Proof.Machine

namespace Sys2Proof.Proofs

open Sys2Proof.Machine Sys2Proof.Safety

/-- Settles O17: a command ends with `finish` over an update that reads no status, and `STICKY` is lost by no update but
a reset and a write of `STATUS`. -/
theorem stickyIsSetByFailureAndClearedByHostOrReset : Obligations.StickyIsSetByFailureAndClearedByHostOrReset := by
  refine ⟨fun i s => ?_, step_clears_sticky⟩
  obtain ⟨code, sym, pos, s1, h, -⟩ := exec_next i s
  exact ⟨_, h, exec_err_le h, exec_sticky h, exec_withErr h⟩

/-- Settles O30: the two registers are written by their own accesses alone, and a command reads no more of `IBUF` than the
input text. -/
theorem inputBufferHoldsTheInputText : Obligations.InputBufferHoldsTheInputText := by
  refine ⟨fun s src rest h => ?_, fun s rest h => ?_, fun s src k rest hk h => ?_, fun i s t h => ?_,
    fun i s t b h hb => ?_, fun i => ?_, rfl⟩
  · exact ⟨_, step_write s 0x1C src rest (by decide) rfl h, rfl, setIbufLen_toNat _ _⟩
  · exact step_read_of_atAccess (off := 0x1C) h (by decide) rfl (busRead_ibufLen_toNat s)
  · refine ⟨_, step_write_ibufWord hk h, rfl, fun i hi => ?_, fun i hi => ?_⟩
    · have he : i.val = 4 * k + i.val % 4 := by omega
      rw [← byteOf_toNat, ← storeWord_get_of_mem s.ibuf (4 * k) (i.val % 4) _ (by omega) (by omega)]
      simp only [setIbufWord_ibuf, setPending_ibuf, ← he]
    · exact storeWord_get_of_not_mem _ _ _ _ i.isLt (by omega)
  · exact ⟨exec_ibuf h, exec_ibufLen h⟩
  · exact exec_withIbuf h b (inputText_withIbuf s b hb)
  · simp [State.reset]

/-- Settles O27, by the number `STATUS` reads as and what a write makes of its bit 8. -/
theorem statusReadsErrAndStickyAndClearsSticky : Obligations.StatusReadsErrAndStickyAndClearsSticky := by
  refine ⟨fun s rest h => ?_, fun s src rest h => ?_, rfl, rfl, fun i s t h => exec_err_le h⟩
  · exact step_read_of_atAccess (off := 0x04) h (by decide) rfl (statusWord_toNat s)
  · have hw : step s = .next (writeStatus (srcValue src s) (withRest rest s)) :=
      step_write s 0x04 src rest (by decide) rfl h
    rw [hw]
    exact ⟨fun hv => by rw [writeStatus_of_bit_set _ _ hv], fun hv => by rw [writeStatus_of_bit_clear _ _ hv]⟩

/-- Settles O28: the halves by their arithmetic; bit 63 puts the operand past every tested range. -/
theorem argHalvesAreIndependent : Obligations.ArgHalvesAreIndependent := by
  refine ⟨fun s src rest h => ?_, fun s src rest h => ?_, fun s rest h => ?_, fun s rest h => ?_,
    fun i s t h => exec_arg h, fun s h => ?_, rfl⟩
  · exact ⟨_, step_write s 0x08 src rest (by decide) rfl h, rfl, setArgLo_toNat _ _⟩
  · exact ⟨_, step_write s 0x0C src rest (by decide) rfl h, rfl, setArgHi_toNat _ _⟩
  · exact step_read_of_atAccess (off := 0x08) h (by decide) rfl (low_half_toNat s.arg)
  · exact step_read_of_atAccess (off := 0x0C) h (by decide) rfl (high_half_toNat s.arg)
  · have hbig : 2 ^ 63 ≤ argNat s := Nat.ge_two_pow_of_testBit h
    refine ⟨fun i hi => ?_, _, exec_encode_of_not_mem s (.inr (by rw [maxNumber]; omega)), rfl⟩
    simp only [List.mem_cons, List.not_mem_nil, or_false] at hi
    obtain rfl | rfl | rfl := hi
    · exact ⟨_, exec_symbolOf_of_ge s (by omega), rfl⟩
    · exact ⟨_, exec_digitOf_of_ge s (by omega), rfl⟩
    · exact ⟨_, exec_csumStep_of_ge s (by omega), rfl⟩

/-- Settles O29: no other command's update touches `ACC`. -/
theorem accIsWrittenByItsTwoCommandsOnly : Obligations.AccIsWrittenByItsTwoCommandsOnly := by
  refine ⟨fun s rest h => ?_, fun s src rest h => ?_, fun i s t h hne => ?_, rfl⟩
  · obtain ⟨t, ht, hhost, hn⟩ := step_read_of_atAccess (off := 0x18) h (by decide) rfl (busRead_acc_toNat s)
    exact ⟨t, ht, hhost, hn, hn ▸ s.acc.isLt⟩
  · exact step_write s 0x18 src rest (by decide) rfl h
  · simpa using not_imp_comm.1 (exec_acc h) hne

end Sys2Proof.Proofs

namespace Sys2Proof.Machine

open Sys2Proof.Safety

/-! Which accesses the window admits (spec/20_memory.md R37, R38), and the offsets that hold nothing to read or to write
(R36). -/

theorem admittedOffset_of_admitted {off : Int} {size : Nat} (h : Admitted off size) :
    admittedOffset off size = .ok off.toNat := by
  obtain ⟨hsize, halign, hlow, hhigh⟩ := h
  exact (admittedOffset_ok_iff _ _ _).2 ⟨hsize, halign, hlow, hhigh, rfl⟩

section
variable {off : Int} {size : Nat} (src : Src) (s : State)

theorem transact_write_of_admitted (h : Admitted off size) : ∃ t, transact (.write off size src) s = .next t := by
  simp only [transact, admittedOffset_of_admitted h]
  exact busWrite_next _ _ _

theorem transact_write_of_not_admitted (h : ¬ Admitted off size) :
    ∃ r, transact (.write off size src) s = .refused r := by
  obtain ⟨r, hr⟩ := admittedOffset_error off size h
  exact ⟨r, by simp only [transact, hr]⟩

theorem transact_read_of_admitted (h : Admitted off size) : ∃ t, transact (.read off size) s = .next t := by
  simp only [transact, admittedOffset_of_admitted h]
  exact ⟨_, rfl⟩

theorem transact_read_of_not_admitted (h : ¬ Admitted off size) : ∃ r, transact (.read off size) s = .refused r := by
  obtain ⟨r, hr⟩ := admittedOffset_error off size h
  exact ⟨r, by simp only [transact, hr]⟩

end

/-- An outcome that is a next state where `P` holds and a refusal where it fails is a next state only where `P` holds. -/
theorem next_iff_of_next_or_refused {P : Prop} {o : Host.Outcome State Fault Refusal} (hn : P → ∃ t, o = .next t)
    (hr : ¬ P → ∃ r, o = .refused r) : (∃ t, o = .next t) ↔ P := by
  refine ⟨fun ⟨t, ht⟩ => by_contra fun hP => ?_, hn⟩
  obtain ⟨r, hr⟩ := hr hP
  cases ht.symm.trans hr

/-- A read falls through the map at a reserved offset. -/
theorem busRead_reserved (off : Nat) (s : State) (h : (0x28 ≤ off ∧ off < 0x40) ∨ 0xC0 ≤ off) : busRead off s = 0 := by
  unfold busRead
  iterate 12 rw [if_neg (by omega)]

/-- A write falls through the map at every offset that is not one of a writable register. -/
theorem busWrite_not_writable (off : Nat) (v : Word) (s : State) (hreg : off ∉ [0x00, 0x04, 0x08, 0x0C, 0x1C])
    (hbuf : off < 0x40 ∨ 0x7C < off) : busWrite off v s = .next s := by
  simp only [List.mem_cons, List.not_mem_nil, or_false, not_or] at hreg
  obtain ⟨hcmd, hstatus, hargLo, hargHi, hibufLen⟩ := hreg
  rw [busWrite, if_neg hcmd, if_neg hstatus, if_neg hargLo, if_neg hargHi, if_neg hibufLen, if_neg (by omega)]

end Sys2Proof.Machine

namespace Sys2Proof.Proofs

open Sys2Proof.Machine Sys2Proof.Safety

/-- Settles O24: an admitted access has a next state and any other a refusal, and no outcome is both. -/
theorem onlyWronglyShapedAccessesAreRefused : Obligations.OnlyWronglyShapedAccessesAreRefused := by
  refine fun s off size src rest => ⟨fun h => ?_, fun h => ?_⟩
  · rw [step_pending s _ _ h]
    exact ⟨next_iff_of_next_or_refused (transact_write_of_admitted src _) (transact_write_of_not_admitted src _),
      transact_write_of_not_admitted src _⟩
  · rw [step_pending s _ _ h]
    exact ⟨next_iff_of_next_or_refused (transact_read_of_admitted _) (transact_read_of_not_admitted _),
      transact_read_of_not_admitted _⟩

/-- Settles O26: a reserved offset is in no row of the read map, and neither it nor a read-only register is in a row of the
write map. -/
theorem reservedAndReadOnlyOffsetsIgnoreWrites : Obligations.ReservedAndReadOnlyOffsetsIgnoreWrites := by
  refine fun s off src rest h4 => ⟨fun hoff h => ?_, fun hoff h => ?_⟩
  · exact step_read_of_atAccess h (by omega) h4 (by rw [busRead_reserved off s (by omega)]; rfl)
  · simp only [List.mem_cons, List.not_mem_nil, or_false] at hoff
    rw [step_write s off src rest (by omega) h4 h]
    exact busWrite_not_writable off _ _ (by simp only [List.mem_cons, List.not_mem_nil, or_false]; omega) (by omega)

end Sys2Proof.Proofs

namespace Sys2Proof

open Laws

/-- The per-command facts of `Laws.CommandWord`, for every command. -/
theorem commandWord_statement : ∀ i : Instr, CommandWord.Statement i
  | .nop => CommandWord.nop
  | .symbolOf => CommandWord.symbolOf
  | .digitOf => CommandWord.digitOf
  | .normalize => CommandWord.normalize
  | .mask => CommandWord.mask
  | .unmask => CommandWord.unmask
  | .csumClear => CommandWord.csumClear
  | .csumStep => CommandWord.csumStep
  | .csumVerify => CommandWord.csumVerify
  | .encode => CommandWord.encode
  | .decode => CommandWord.decode

@[simp] theorem decode_encode (i : Instr) : decode (encode i) = .ok i := (commandWord_statement i).left

/-- A word is its two fields, one after the other (spec/30_encoding.md R49). -/
theorem mbzOf_append_opcOf (w : Word) : mbzOf w ++ opcOf w = w :=
  BitVec.extractLsb'_append_extractLsb'_eq_extractLsb' (by rfl) |>.trans BitVec.extractLsb'_eq_self

/-- An opcode that the map assigns is the opcode of the command it is assigned to (R52). -/
theorem opcodeOf_of_commandOf {opc : Byte} {i : Instr} (h : commandOf opc = some i) : opcodeOf i = opc := by
  unfold commandOf at h
  split at h <;> cases h <;> exact BitVec.eq_of_toNat_eq (Eq.symm ‹_›)

/-- What the decoder accepts: a zero `MBZ` over an assigned opcode (R49). -/
theorem fields_of_decode {w : Word} {i : Instr} (h : decode w = .ok i) : mbzOf w = 0 ∧ commandOf (opcOf w) = some i := by
  unfold decode at h
  split at h
  · cases h
  · next hmbz =>
    split at h
    · next hopc =>
      cases h
      exact ⟨not_not.mp hmbz, hopc⟩
    · cases h

/-- A command is selected by its own word alone (R52). -/
theorem decode_eq_ok_iff (w : Word) (i : Instr) : decode w = .ok i ↔ w = encode i := by
  refine ⟨fun h => ?_, fun h => h ▸ decode_encode i⟩
  obtain ⟨hmbz, hopc⟩ := fields_of_decode h
  calc
    w = mbzOf w ++ opcOf w := (mbzOf_append_opcOf w).symm
    _ = encode i := by rw [hmbz, ← opcodeOf_of_commandOf hopc, encode]

end Sys2Proof

namespace Sys2Proof.Proofs

/-- Settles O2: a word decodes to a command exactly when it is that command's encoding, and the eleven encodings are the
words of the map. -/
theorem commandWordsAndCommandsAgree : Obligations.CommandWordsAndCommandsAgree :=
  ⟨fun i _ => decode_encode i, fun w =>
    ⟨decode_eq_ok_iff w .nop, decode_eq_ok_iff w .symbolOf, decode_eq_ok_iff w .digitOf, decode_eq_ok_iff w .normalize,
      decode_eq_ok_iff w .mask, decode_eq_ok_iff w .unmask, decode_eq_ok_iff w .csumClear, decode_eq_ok_iff w .csumStep,
      decode_eq_ok_iff w .csumVerify, decode_eq_ok_iff w .encode, decode_eq_ok_iff w .decode⟩⟩

end Sys2Proof.Proofs

namespace Sys2Proof.Safety

open Sys2Proof.Machine

/-! The alphabet in characters (spec/40_alphabet.md R57) against the model's bytes and their two lookups (R59, R60), and how
a command that writes `RES` or its status alone ends. -/

theorem symbolCodes_eq_alphabet : symbolCodes = alphabet.map (·.toNat) := by decide

theorem symbolOf_toNat {d : Nat} (hd : d < 32) : (symbolOf (BitVec.ofNat 5 d)).toNat = symbolCode d := by
  have hdigit : (BitVec.ofNat 5 d).toNat = d := Nat.mod_eq_of_lt hd
  rw [symbolCode, symbolCodes_eq_alphabet, symbolOf, hdigit]
  exact (List.getD_map alphabet (0 : Byte) (·.toNat)).symm

theorem symbolCode_lt {d : Nat} (hd : d < 32) : symbolCode d < 256 := symbolOf_toNat hd ▸ BitVec.isLt _

/-- The byte of a digit's symbol is looked up as that digit (R60). -/
theorem digitOf_of_toNat_eq_symbolCode {c : Byte} {d : Nat} (hd : d < 32) (h : c.toNat = symbolCode d) :
    digitOf c = some (BitVec.ofNat 5 d) := by
  obtain rfl : c = symbolOf (BitVec.ofNat 5 d) := BitVec.eq_of_toNat_eq (h.trans (symbolOf_toNat hd).symm)
  exact digitOf_symbolOf _

/-- The lookup fails on the bytes that are no symbol, and on those alone (R58, R60). -/
theorem digitOf_eq_none_iff (c : Byte) : digitOf c = none ↔ ¬ IsSymbol c := by
  have hmem : IsSymbol c ↔ c ∈ alphabet := by
    rw [IsSymbol, symbolCodes_eq_alphabet, List.mem_map_of_injective fun _ _ => BitVec.eq_of_toNat_eq]
  rw [hmem, digitOf, Option.map_eq_none_iff, List.findIdx?_eq_none_iff]
  simp only [beq_eq_false_iff_ne]
  exact ⟨fun h hc => h c hc rfl, fun h x hx hxc => h (hxc ▸ hx)⟩

section
variable {o : Host.Outcome State Fault Refusal} {s : State}

/-- A command that succeeds with a number in `RES` (spec/60_exceptions.md R99, spec/10_state.md R27). -/
theorem onlyRes_of_finish_setRes {v : Nat} (hv : v < 2 ^ 64) (h : o = .next (finish .none 0 0 (setRes v s))) :
    ∃ t, o = .next t ∧ OnlyRes s t ∧ t.res.toNat = v ∧ Reports s t 0 0 0 :=
  ⟨_, h, onlyRes_setRes .., Nat.mod_eq_of_lt hv, reports_finish _ _ _ _ _ (by decide) rfl⟩

/-- A command that writes its status alone, with `ERR_POS` 0 (R99). -/
theorem onlyStatus_of_finish {c : ErrCode} {y : Byte} (h : o = .next (finish c y 0 s)) :
    ∃ t, o = .next t ∧ OnlyStatus s t ∧ Reports s t (errNumber c).toNat y.toNat 0 :=
  ⟨_, h, onlyStatus_finish .., reports_finish _ _ _ _ _ (by decide) rfl⟩

end

end Sys2Proof.Safety

namespace Sys2Proof.Proofs

open Sys2Proof.Machine Sys2Proof.Safety

/-- Settles O6: below 32 the operand is a digit, and its byte in the alphabet is the character's code. -/
theorem symbolOfGivesTheSymbol : Obligations.SymbolOfGivesTheSymbol := by
  refine ⟨by decide, fun s => ⟨fun hlt => ?_, fun hge => onlyStatus_of_finish (exec_symbolOf_of_ge s hge)⟩⟩
  have hexec := exec_symbolOf_of_lt s hlt
  rw [symbolOf_toNat hlt] at hexec
  exact onlyRes_of_finish_setRes ((symbolCode_lt hlt).trans (by decide)) hexec

/-- Settles O7: an operand below 256 is a byte, which the lookup finds exactly when it is a symbol's. -/
theorem digitOfGivesTheDigit : Obligations.DigitOfGivesTheDigit := by
  refine ⟨by decide, fun s => ⟨fun d hd harg => ?_, fun hlt hsym => ?_, fun hge =>
    onlyStatus_of_finish (exec_digitOf_of_ge s hge)⟩⟩
  · have hlt : s.arg.toNat < 256 := harg ▸ symbolCode_lt hd
    have hbyte : (BitVec.ofNat 8 s.arg.toNat).toNat = s.arg.toNat := Nat.mod_eq_of_lt hlt
    have hdigit : (BitVec.ofNat 5 d).toNat = d := Nat.mod_eq_of_lt hd
    have hexec := exec_digitOf_of_some s _ hlt (digitOf_of_toNat_eq_symbolCode hd (hbyte.trans harg))
    rw [hdigit] at hexec
    exact onlyRes_of_finish_setRes (hd.trans (by decide)) hexec
  · have hbyte : (BitVec.ofNat 8 s.arg.toNat).toNat = s.arg.toNat := Nat.mod_eq_of_lt hlt
    have hnone : digitOf (BitVec.ofNat 8 s.arg.toNat) = none := (digitOf_eq_none_iff _).mpr (by rwa [IsSymbol, hbyte])
    have hfail := onlyStatus_of_finish (exec_digitOf_of_none s hlt hnone)
    rwa [hbyte] at hfail

end Sys2Proof.Proofs

namespace Sys2Proof.Safety

open Sys2Proof.Machine

/-! The normalizer byte by byte (spec/41_normalizer.md R63 to R66), the search for a byte that is no symbol (R67), and how a
command that writes `OBUF` and its status alone ends. -/

/-- Upcasing a byte, dropping it if it is a dash and substituting what is left is the normal form of the byte; a fact about
each of the 256 bytes. -/
theorem map_subst_guard_upcase (c : Byte) : (Option.guard (· != 0x2D) (upcase c)).map subst = normalByte c := by
  revert c; decide +kernel

/-- The three passes of `normChars` are one pass that treats each byte by itself. -/
theorem normChars_eq_filterMap (l : List Byte) : normChars l = l.filterMap normalByte := by
  rw [normChars, ← List.filterMap_eq_filter, List.map_filterMap, List.filterMap_map]
  exact List.filterMap_congr fun c _ => map_subst_guard_upcase c

theorem normChars_inputText (s : State) : normChars (inputText s) = normalText s := normChars_eq_filterMap _

theorem normalText_length (s : State) : (normalText s).length ≤ 64 :=
  normChars_inputText s ▸ (normChars_length _).trans (inputText_length s)

theorem isNone_digitOf_iff (c : Byte) : (digitOf c).isNone = true ↔ ¬ IsSymbol c :=
  Option.isNone_iff_eq_none.trans (digitOf_eq_none_iff c)

theorem firstBad_eq_none_iff (l : List Byte) : firstBad l = none ↔ ∀ c ∈ l, IsSymbol c := by
  simp only [firstBad, List.findIdx?_eq_none_iff, ← Bool.not_eq_true, isNone_digitOf_iff, not_not]

/-- The first byte that is no symbol is found by its index (R67). -/
theorem firstBad_append_cons {before : List Byte} {c : Byte} (after : List Byte) (hbefore : ∀ b ∈ before, IsSymbol b)
    (hc : ¬ IsSymbol c) : firstBad (before ++ c :: after) = some before.length := by
  have hnone := (firstBad_eq_none_iff before).mpr hbefore
  rw [firstBad] at hnone ⊢
  rw [List.findIdx?_append, hnone, List.findIdx?_cons, if_pos ((isNone_digitOf_iff c).mpr hc)]
  simp

/-- A command that writes a text to `OBUF` and its status (spec/60_exceptions.md R99, spec/10_state.md R30). -/
theorem onlyOut_of_finish_setOut {o : Host.Outcome State Fault Refusal} {s : State} {l : List Byte} {e : ErrCode} {y : Byte}
    {p : Nat} (hl : l.length ≤ 64) (hp : p ≤ 64) (h : o = .next (finish e y p (setOut l s))) :
    ∃ t, o = .next t ∧ OnlyOut s t ∧ OutIs t (l.map (·.toNat)) ∧ Reports s t (errNumber e).toNat y.toNat p :=
  ⟨_, h, onlyOut_setOut .., outIs_setOut l hl _ rfl rfl, reports_finish _ _ _ _ _ hp rfl⟩

end Sys2Proof.Safety

namespace Sys2Proof.Proofs

open Sys2Proof.Machine Sys2Proof.Safety

/-- Settles O8: the normalized text is the text's bytes each by itself, and the search over it stops at the first byte that
is no symbol. -/
theorem normalizeWritesTheNormalizedText : Obligations.NormalizeWritesTheNormalizedText := by
  refine ⟨by decide, fun s => ⟨fun hall => ?_, fun before c after hsplit hbefore hc => ?_⟩⟩
  · have hexec := exec_normalize_of_none s
    rw [normChars_inputText] at hexec
    exact onlyOut_of_finish_setOut (normalText_length s) (by decide) (hexec ((firstBad_eq_none_iff _).mpr hall))
  · have hbad : firstBad (normalText s) = some before.length := hsplit ▸ firstBad_append_cons after hbefore hc
    have hbyte : (normalText s).getD before.length 0 = c := by simp [hsplit]
    have hpos : before.length ≤ 64 := (firstBad_lt _ _ hbad).le.trans (normalText_length s)
    have hexec := exec_normalize_of_some s before.length
    rw [normChars_inputText, hbyte] at hexec
    exact onlyOut_of_finish_setOut (normalText_length s) hpos (hexec hbad)

end Sys2Proof.Proofs

namespace Sys2Proof.Safety

open Sys2Proof.Machine

/-! The checksum step on digits against its arithmetic (spec/43_checksum.md R77), and how a command that writes `ACC` ends. -/

/-- The reduction constant 37 clears bit 5 of a doubled digit that has it, so a step of digits is a digit (R77). -/
theorem stepNat_lt {a d : Nat} (ha : a < 32) (hd : d < 32) : stepNat a d < 32 := by
  have hreduced : ∀ t < 64, 32 ≤ t → t ^^^ 37 < 32 := by decide
  have hxor : a ^^^ d < 32 := Nat.xor_lt_two_pow (n := 5) ha hd
  unfold stepNat
  split
  case isTrue hge => exact hreduced _ (by omega) hge
  case isFalse hlt => exact Nat.not_le.mp hlt

/-- Narrowing the model's step to a digit loses nothing (R77). -/
theorem csStep_toNat (a d : Digit) : (csStep a d).toNat = stepNat a.toNat d.toNat := by
  have hdouble : (a.toNat ^^^ d.toNat) <<< 1 = 2 * (a.toNat ^^^ d.toNat) := Nat.shiftLeft_succ _ 0
  rw [csStep, hdouble]
  exact Nat.mod_eq_of_lt (stepNat_lt a.isLt d.isLt)

/-- A command that succeeds with a digit in `ACC` (spec/60_exceptions.md R99, spec/10_state.md R28). -/
theorem onlyAcc_of_finish_setAcc {o : Host.Outcome State Fault Refusal} {s : State} {d : Digit}
    (h : o = .next (finish .none 0 0 (setAcc d s))) :
    ∃ t, o = .next t ∧ OnlyAcc s t ∧ t.acc.toNat = d.toNat ∧ Reports s t 0 0 0 :=
  ⟨_, h, onlyAcc_setAcc .., rfl, reports_finish _ _ _ _ _ (by decide) rfl⟩

end Sys2Proof.Safety

namespace Sys2Proof.Proofs

open Sys2Proof.Machine Sys2Proof.Safety

/-- Settles O11: the command is `setAcc 0`, then a success. -/
theorem csumClearZeroesTheAccumulator : Obligations.CsumClearZeroesTheAccumulator :=
  ⟨by decide, fun s => onlyAcc_of_finish_setAcc (exec_csumClear s)⟩

/-- Settles O12: below 32 the operand is a digit, and the model's step on digits is the arithmetic one. -/
theorem csumStepFoldsOneDigit : Obligations.CsumStepFoldsOneDigit := by
  refine ⟨by decide, fun s => ⟨fun hlt => ?_, fun hge => onlyStatus_of_finish (exec_csumStep_of_ge s hge)⟩⟩
  have hdigit : (BitVec.ofNat 5 s.arg.toNat).toNat = s.arg.toNat := Nat.mod_eq_of_lt hlt
  have hstep := onlyAcc_of_finish_setAcc (exec_csumStep_of_lt s hlt)
  rwa [csStep_toNat, hdigit] at hstep

/-- Settles O13: the accumulator is 0 as a number exactly when it is the digit the command compares it with. -/
theorem csumVerifyTestsTheAccumulator : Obligations.CsumVerifyTestsTheAccumulator := by
  have hzero (s : State) : s.acc.toNat = 0 ↔ s.acc = 0 := BitVec.toNat_inj (y := 0)
  refine ⟨by decide, fun s => ⟨fun h0 => ?_, fun hne => ?_⟩⟩
  · exact onlyRes_of_finish_setRes (by decide) (exec_csumVerify_of_eq s ((hzero s).mp h0))
  · exact onlyStatus_of_finish (exec_csumVerify_of_ne s (mt (hzero s).mpr hne))

end Sys2Proof.Proofs

namespace Sys2Proof.Safety

open Sys2Proof.Machine

/-- A report of success keeps `STICKY`: no code other than 0 is written (spec/10_state.md R22). -/
theorem Reports.sticky_of_success {s t : State} {sym pos : Nat} (h : Reports s t 0 sym pos) : t.sticky = s.sticky := by
  obtain ⟨-, -, -, hsticky⟩ := h
  simpa using hsticky

end Sys2Proof.Safety

namespace Sys2Proof.Proofs

open Sys2Proof.Machine Sys2Proof.Safety

/-- Settles O5: the command is a success over the unchanged state, and a success keeps `STICKY`. -/
theorem nopOnlyReportsSuccess : Obligations.NopOnlyReportsSuccess := by
  refine ⟨by decide, fun s => ?_⟩
  obtain ⟨t, hexec, honly, hreports⟩ := onlyStatus_of_finish (exec_nop s)
  exact ⟨t, hexec, honly, hreports, hreports.sticky_of_success⟩

end Sys2Proof.Proofs

namespace Sys2Proof

/-- A command's word is an assigned opcode under a zero `MBZ`, so as a number it is below 0x0B (spec/30_encoding.md R52). -/
theorem encode_toNat_lt (i : Instr) : (encode i).toNat < 0x0B := by
  cases i <;> decide

/-- A word with `MBZ` not zero, or with a reserved opcode, is no command (spec/30_encoding.md R53). -/
theorem decode_eq_error_of_illegal {w : Word} (h : w.toNat / 2 ^ 8 ≠ 0 ∨ 0x0B ≤ w.toNat % 2 ^ 8) :
    ∃ e, decode w = .error e := by
  cases hdecode : decode w with
  | error e => exact ⟨e, rfl⟩
  | ok i =>
    have hlt : w.toNat < 0x0B := (decode_eq_ok_iff w i).mp hdecode ▸ encode_toNat_lt i
    omega

end Sys2Proof

namespace Sys2Proof.Machine

/-- Executing a word that is no command ends with ILLEGAL_COMMAND and no payload (spec/60_exceptions.md R101). -/
theorem execute_of_decode_error {w : Word} {e : IllegalWord} (s : State) (h : decode w = .error e) :
    execute w s = .next (finish .illegalCommand 0 0 s) := by
  rw [execute, h]
  rfl

/-- An admitted write of a word that is no command. -/
theorem step_illegal_word (s : State) (src : Src) (rest : List Transaction) {e : IllegalWord}
    (h : s.host.pending = .write 0x00 4 src :: rest) (hd : decode (srcValue src s) = .error e) :
    step s = .next (finish .illegalCommand 0 0 (setCmdLast (srcValue src s) (setPending rest s))) := by
  rw [step_write s 0 src rest (by decide) rfl h, busWrite, if_pos rfl, execute_of_decode_error _ hd]

end Sys2Proof.Machine

namespace Sys2Proof.Proofs

open Sys2Proof.Machine Sys2Proof.Safety

/-- Settles O3: neither form of R53 is the word of a command, so the write of CMD sets `CMD_LAST` and then only `finish`
runs, which keeps every field but the status. -/
theorem illegalWordOnlyReports : Obligations.IllegalWordOnlyReports := by
  intro s src rest haccess hillegal
  obtain ⟨e, hdecode⟩ := decode_eq_error_of_illegal hillegal
  exact onlyStatus_of_finish (step_illegal_word s src rest haccess hdecode)

end Sys2Proof.Proofs

namespace Sys2Proof.Machine

/-! What the zero buffer and the reset state show to a read: every row of the read map is 0 there (spec/70_reset_and_hazards.md
R112, spec/20_memory.md R37). -/

/-- A zero buffer holds the byte 0 at every index, inside it or past its end. -/
theorem bufByte_replicate_zero (i : Nat) : bufByte (Vector.replicate 64 0#8) i = 0#8 := by
  rw [bufByte, Vector.getElem?_replicate]
  split <;> rfl

/-- Four zero bytes are the word 0. -/
theorem bufWord_replicate_zero (k : Nat) : bufWord (Vector.replicate 64 0#8) k = 0#32 := by
  simp only [bufWord, bufByte_replicate_zero]
  rfl

theorem statusWord_reset : statusWord State.reset = 0#32 := rfl

theorem errInfoWord_reset : errInfoWord State.reset = 0#32 := rfl

/-- Right after reset the read map is 0 in every row, and so at every offset. -/
theorem busRead_reset (off : Nat) : busRead off State.reset = 0#32 := by
  simp only [busRead, statusWord_reset, errInfoWord_reset]
  simp only [State.reset, BitVec.ofNat_eq_ofNat, BitVec.extractLsb'_zero, BitVec.setWidth_zero, bufWord_replicate_zero,
    ite_self]

end Sys2Proof.Machine

namespace Sys2Proof.Proofs

open Sys2Proof.Machine Sys2Proof.Safety

/-- Settles O20: the table of R112 is the definition of the reset state, its buffers byte by byte, and a read finds 0 in every
row of the read map. -/
theorem resetStateIsZero : Obligations.ResetStateIsZero := by
  refine ⟨rfl, rfl, rfl, rfl, rfl, rfl, fun i => ?ibuf, rfl, fun i => ?obuf, rfl, rfl, rfl, fun off => ?reads⟩
  case ibuf => exact congrArg BitVec.toNat (Vector.getElem_replicate i.isLt)
  case obuf => exact congrArg BitVec.toNat (Vector.getElem_replicate i.isLt)
  case reads => exact congrArg BitVec.toNat (busRead_reset off)

end Sys2Proof.Proofs

namespace Sys2Proof.Safety

open Sys2Proof.Machine

/-! The invariant of spec/10_state.md R33, update by update: each keeps every clause for the fields it leaves and meets the
clauses for the fields it writes. -/

theorem inv_reset : Inv State.reset := by
  refine ⟨by decide, by decide, fun i _ => ?_, by decide, by decide, by decide⟩
  exact Vector.getElem_replicate i.isLt

section
variable {s : State} (h : Inv s)
include h

theorem inv_finish (c : ErrCode) (y : Byte) {p : Nat} (hp : p ≤ 64) : Inv (finish c y p s) := by
  obtain ⟨hibuf, hobuf, hzero, -, -, hres⟩ := h
  have hpos : (BitVec.ofNat 7 p).toNat = p := Nat.mod_eq_of_lt (by omega)
  exact ⟨hibuf, hobuf, hzero, errNumber_le c, hpos.le.trans hp, hres⟩

theorem inv_setRes {v : Nat} (hv : v < 2 ^ 35) : Inv (setRes v s) := by
  obtain ⟨hibuf, hobuf, hzero, herr, hpos, -⟩ := h
  have hv64 : (BitVec.ofNat 64 v).toNat = v := Nat.mod_eq_of_lt (by omega)
  exact ⟨hibuf, hobuf, hzero, herr, hpos, hv64.trans_lt hv⟩

theorem inv_setOut {l : List Byte} (hl : l.length ≤ 64) : Inv (setOut l s) := by
  obtain ⟨hibuf, -, -, herr, hpos, hres⟩ := h
  have hlen : (BitVec.ofNat 7 l.length).toNat = l.length := Nat.mod_eq_of_lt (by omega)
  refine ⟨hibuf, hlen.le.trans hl, fun i hi => ?_, herr, hpos, hres⟩
  rw [setOut_obufLen, hlen] at hi
  rw [setOut_obuf, zeroFilled_get l i.val i.isLt, List.getD_eq_default l 0 hi]

theorem inv_setIbufLen (v : Word) : Inv (setIbufLen v s) := by
  obtain ⟨-, hrest⟩ := h
  exact ⟨(setIbufLen_toNat v s).trans_le (Nat.min_le_right _ _), hrest⟩

theorem inv_setIbufWord (k : Nat) (v : Word) : Inv (setIbufWord k v s) := by
  simpa only [Inv, setIbufWord_ibufLen, setIbufWord_obuf, setIbufWord_obufLen, setIbufWord_err, setIbufWord_errPos,
    setIbufWord_res] using h

theorem inv_exec {i : Instr} {t : State} (he : exec i s = .next t) : Inv t := by
  obtain ⟨code, sym, pos, s1, hnext, hpos, hs1⟩ := exec_next i s
  obtain rfl : t = finish code sym pos s1 := Host.Outcome.next.inj (he.symm.trans hnext)
  refine inv_finish ?_ code sym hpos
  obtain rfl | ⟨v, hv, rfl⟩ | ⟨d, rfl⟩ | ⟨l, hl, rfl | ⟨v, hv, rfl⟩⟩ := hs1
  · exact h
  · exact inv_setRes h hv
  · exact h
  · exact inv_setOut h hl
  · exact inv_setRes (inv_setOut h hl) hv

theorem inv_execute {w : Word} {t : State} (he : execute w s = .next t) : Inv t := by
  obtain ⟨i, -, hi⟩ | ⟨-, rfl⟩ := execute_cases w s t he
  · exact inv_exec h hi
  · exact inv_finish h _ _ (by decide)

theorem inv_busWrite {off : Nat} {v : Word} {t : State} (hw : busWrite off v s = .next t) : Inv t := by
  obtain ⟨-, he⟩ | ⟨-, rfl⟩ | ⟨-, rfl⟩ | ⟨-, rfl⟩ | ⟨-, rfl⟩ | ⟨-, -, rfl⟩ | rfl := busWrite_cases off v s t hw
  · exact inv_execute (s := setCmdLast v s) h he
  · exact h
  · exact h
  · exact h
  · exact inv_setIbufLen h v
  · exact inv_setIbufWord h _ v
  · exact h

theorem inv_transact {x : Transaction} {t : State} (hx : transact x s = .next t) : Inv t := by
  obtain ⟨off, size, src, o, -, -, hw⟩ | ⟨-, k, rfl⟩ | ⟨-, rfl⟩ := transact_cases x s t hx
  · exact inv_busWrite h hw
  · exact h
  · exact inv_reset

end

/-- The host's side is in no clause of the invariant, so the step's transaction decides. -/
theorem inv_step {s t : State} (h : Inv s) (hstep : step s = .next t) : Inv t := by
  obtain ⟨k, rfl⟩ | ⟨x, k, -, -, hx⟩ := step_made s t hstep
  · exact h
  · exact inv_transact (s := setHost k s) h hx

end Sys2Proof.Safety

namespace Sys2Proof.Proofs

open Sys2Proof.Safety

/-- Settles O23, update by update. -/
theorem everyStepKeepsTheInvariant : Obligations.EveryStepKeepsTheInvariant := fun _ _ => inv_step

/-- Settles O22. -/
theorem resetMeetsTheInvariant : Obligations.ResetMeetsTheInvariant := inv_reset

end Sys2Proof.Proofs

namespace Sys2Proof.Machine

open Sys2Proof.Safety

/-! What commands leave alone (spec/60_exceptions.md R99, spec/10_state.md R24, R27, R30), and what the ones that fail do
(R100). -/

namespace Writes

variable {i : Instr} {u : State → State} (h : Writes i u) (s : State)
include h

theorem cmdLast_eq : (u s).cmdLast = s.cmdLast := by cases h <;> rfl

theorem host_eq : (u s).host = s.host := by cases h <;> rfl

theorem res_eq (hi : i ∉ [Instr.symbolOf, .digitOf, .mask, .unmask, .csumVerify, .decode]) : (u s).res = s.res := by
  cases h with
  | res _ hi' => exact absurd (List.mem_append_left [Instr.decode] hi') hi
  | resOut => exact absurd (by decide) hi
  | status | acc | out => rfl

theorem out_eq (hi : i ∉ [Instr.encode, .normalize, .decode]) : (u s).obuf = s.obuf ∧ (u s).obufLen = s.obufLen := by
  cases h with
  | out _ hi' => exact absurd (by revert hi'; cases i <;> decide) hi
  | resOut => exact absurd (by decide) hi
  | status | res | acc => exact ⟨rfl, rfl⟩

end Writes

theorem errNumber_eq_zero {c : ErrCode} (h : errNumber c = 0) : c = .none := by
  revert h; cases c <;> decide

section
variable (l : List Byte)

/-- NORMALIZE as a function of the normalized text (spec/41_normalizer.md R68). -/
theorem exec_normalize_of_text :
    ∃ code sym pos, ∀ s, normChars (inputText s) = l → exec .normalize s = .next (finish code sym pos (setOut l s)) := by
  cases hbad : firstBad l with
  | none => exact ⟨_, _, _, fun s hs => hs ▸ exec_normalize_of_none s (hs ▸ hbad)⟩
  | some k => exact ⟨_, _, _, fun s hs => hs ▸ exec_normalize_of_some s k (hs ▸ hbad)⟩

/-- DECODE as a function of the normalized text: it writes `RES` where it succeeds only (spec/44_codec.md R92). -/
theorem exec_decode_of_text : ∃ code sym pos v, ∀ s, normChars (inputText s) = l → exec .decode s =
    .next (finish code sym pos (if code = .none then setRes v (setOut l s) else setOut l s)) := by
  cases hbad : firstBad l with
  | some k => exact ⟨.invalidCharacter, _, _, 0, fun s hs => exec_decode_of_bad s l hs k hbad⟩
  | none =>
    by_cases hlen : l.length < decMinLen ∨ decMaxLen < l.length
    · exact ⟨.lengthError, _, _, 0, fun s hs => exec_decode_of_length s l hs hbad hlen⟩
    · by_cases hsum : checksum (l.filterMap digitOf) = 0
      · exact ⟨.none, _, _, _, fun s hs => exec_decode_of_valid s l hs hbad hlen hsum⟩
      · exact ⟨.checksumMismatch, _, _, 0, fun s hs => exec_decode_of_checksum s l hs hbad hlen hsum⟩

end

/-- ENCODE as a function of the operand: it writes `OBUF` where it succeeds only (spec/44_codec.md R91). -/
theorem exec_encode_of_arg (n : Nat) : ∃ code, ∀ s, argNat s = n →
    exec .encode s = .next (finish code 0 0 (if code = .none then setOut (encodeCode n) s else s)) := by
  by_cases hn : n = 0 ∨ maxNumber ≤ n
  · exact ⟨.outOfRange, fun s hs => exec_encode_of_not_mem s (hs ▸ hn)⟩
  · exact ⟨.none, fun s hs => hs ▸ exec_encode_of_mem s (by omega) (by omega)⟩

/-- Every command succeeds, or writes the status alone, or fails over the output text that NORMALIZE and DECODE leave
first (R99, R100). -/
theorem exec_success_or_keeps (i : Instr) (s : State) : ∃ code sym pos s1, exec i s = .next (finish code sym pos s1) ∧
    (code = .none ∨ s1 = s ∨ i ∈ [Instr.normalize, .decode] ∧ ∃ l, s1 = setOut l s) := by
  cases i with
  | nop => exact ⟨_, _, _, _, exec_nop s, .inl rfl⟩
  | symbolOf =>
    obtain hlt | hge := Nat.lt_or_ge (argNat s) 32
    · exact ⟨_, _, _, _, exec_symbolOf_of_lt s hlt, .inl rfl⟩
    · exact ⟨_, _, _, _, exec_symbolOf_of_ge s hge, .inr (.inl rfl)⟩
  | digitOf =>
    obtain hlt | hge := Nat.lt_or_ge (argNat s) 256
    · cases hdigit : digitOf (BitVec.ofNat 8 (argNat s)) with
      | none => exact ⟨_, _, _, _, exec_digitOf_of_none s hlt hdigit, .inr (.inl rfl)⟩
      | some d => exact ⟨_, _, _, _, exec_digitOf_of_some s d hlt hdigit, .inl rfl⟩
    · exact ⟨_, _, _, _, exec_digitOf_of_ge s hge, .inr (.inl rfl)⟩
  | normalize =>
    obtain ⟨code, sym, pos, h⟩ := exec_normalize_of_text (normChars (inputText s))
    exact ⟨_, _, _, _, h s rfl, .inr (.inr ⟨by decide, _, rfl⟩)⟩
  | mask => exact ⟨_, _, _, _, exec_mask s, .inl rfl⟩
  | unmask => exact ⟨_, _, _, _, exec_unmask s, .inl rfl⟩
  | csumClear => exact ⟨_, _, _, _, exec_csumClear s, .inl rfl⟩
  | csumStep =>
    obtain hlt | hge := Nat.lt_or_ge (argNat s) 32
    · exact ⟨_, _, _, _, exec_csumStep_of_lt s hlt, .inl rfl⟩
    · exact ⟨_, _, _, _, exec_csumStep_of_ge s hge, .inr (.inl rfl)⟩
  | csumVerify =>
    by_cases hacc : s.acc = 0
    · exact ⟨_, _, _, _, exec_csumVerify_of_eq s hacc, .inl rfl⟩
    · exact ⟨_, _, _, _, exec_csumVerify_of_ne s hacc, .inr (.inl rfl)⟩
  | encode =>
    obtain ⟨code, h⟩ := exec_encode_of_arg (argNat s)
    exact ⟨_, _, _, _, h s rfl, (em (code = .none)).imp_right fun hc => .inl (if_neg hc)⟩
  | decode =>
    obtain ⟨code, sym, pos, v, h⟩ := exec_decode_of_text (normChars (inputText s))
    exact ⟨_, _, _, _, h s rfl, (em (code = .none)).imp_right fun hc => .inr ⟨by decide, _, if_neg hc⟩⟩

/-- A command that fails keeps `RES` and `ACC`, and `OBUF` unless it is NORMALIZE or DECODE (R99, R100). -/
theorem exec_failure_keeps {i : Instr} {s t : State} (h : exec i s = .next t) (herr : t.err ≠ 0) : t.res = s.res ∧ t.acc = s.acc ∧
    (i ≠ .normalize → i ≠ .decode → t.obuf = s.obuf ∧ t.obufLen = s.obufLen) := by
  obtain ⟨code, sym, pos, s1, hnext, hs1⟩ := exec_success_or_keeps i s
  obtain rfl : t = finish code sym pos s1 := Host.Outcome.next.inj (h.symm.trans hnext)
  obtain rfl | rfl | ⟨hi, l, rfl⟩ := hs1
  · exact absurd rfl herr
  · exact ⟨rfl, rfl, fun _ _ => ⟨rfl, rfl⟩⟩
  · exact ⟨rfl, rfl, fun hnormalize hdecode => absurd hi (by simp [hnormalize, hdecode])⟩

end Sys2Proof.Machine

namespace Sys2Proof.Proofs

open Sys2Proof.Machine Sys2Proof.Safety

/-- Settles O18: the frame is that of the command's update, and a failure's update is that of the status or of the output
text. -/
theorem commandsKeepTheOtherRegisters : Obligations.CommandsKeepTheOtherRegisters := by
  intro i s t h
  obtain ⟨code, sym, pos, u, hu, rfl⟩ := exec_writes i s t h
  refine ⟨hu.cmdLast_eq s, exec_arg h, exec_ibuf h, exec_ibufLen h, hu.host_eq s, fun hclear hstep => exec_acc h ?_,
    hu.res_eq s, hu.out_eq s, exec_failure_keeps h⟩
  simp [hclear, hstep]

/-- Settles O19: each of the three commands is one function of its operand. -/
theorem codecResultsDependOnOperandsOnly : Obligations.CodecResultsDependOnOperandsOnly := by
  rintro i s s' t t' h h' (⟨rfl, harg⟩ | ⟨rfl | rfl, htext⟩)
  · obtain ⟨code, hexec⟩ := exec_encode_of_arg (argNat s)
    cases h.symm.trans (hexec s rfl)
    cases h'.symm.trans (hexec s' (congrArg BitVec.toNat harg.symm))
    refine ⟨rfl, rfl, rfl, fun herr => ?_, nofun⟩
    rw [if_pos (errNumber_eq_zero (herr rfl)), if_pos (errNumber_eq_zero (herr rfl))]
    exact ⟨rfl, rfl⟩
  · obtain ⟨code, sym, pos, hexec⟩ := exec_normalize_of_text (normChars (inputText s))
    cases h.symm.trans (hexec s rfl)
    cases h'.symm.trans (hexec s' (congrArg normChars htext.symm))
    exact ⟨rfl, rfl, rfl, fun _ => ⟨rfl, rfl⟩, nofun⟩
  · obtain ⟨code, sym, pos, v, hexec⟩ := exec_decode_of_text (normChars (inputText s))
    cases h.symm.trans (hexec s rfl)
    cases h'.symm.trans (hexec s' (congrArg normChars htext.symm))
    by_cases hc : code = .none
    · simp only [if_pos hc]
      exact ⟨rfl, rfl, rfl, fun _ => ⟨rfl, rfl⟩, fun _ _ => rfl⟩
    · simp only [if_neg hc]
      exact ⟨rfl, rfl, rfl, fun _ => ⟨rfl, rfl⟩, fun _ herr => absurd (errNumber_eq_zero herr) hc⟩

end Sys2Proof.Proofs

namespace Sys2Proof.Machine

open Sys2Proof.Safety

/-! What the words of the window stand for in arithmetic (spec/20_memory.md R37, R41) and by their bytes. -/

theorem packWord_toNat (b0 b1 b2 b3 : Byte) :
    (packWord b0 b1 b2 b3).toNat = b0.toNat + 2 ^ 8 * b1.toNat + 2 ^ 16 * b2.toNat + 2 ^ 24 * b3.toNat := by
  simp only [packWord, toNat_append_eq]
  omega

/-- Packing four bytes and taking byte `j` of the word gives the `j`-th of them (R41). -/
theorem byteOf_packWord (f : Nat → Byte) {j : Nat} (hj : j < 4) :
    byteOf (packWord (f 0) (f 1) (f 2) (f 3)) j = f j := by
  apply BitVec.eq_of_toNat_eq
  rw [byteOf_toNat, packWord_toNat]
  interval_cases j <;> omega

theorem byteOf_bufWord (b : Vector Byte 64) (k : Nat) {j : Nat} (hj : j < 4) :
    byteOf (bufWord b k) j = bufByte b (k + j) :=
  byteOf_packWord (fun j => bufByte b (k + j)) hj

theorem byteOf_textWord (l : List Byte) (k : Nat) {j : Nat} (hj : j < 4) :
    byteOf (textWord l k) j = l.getD (4 * k + j) 0 :=
  byteOf_packWord (fun j => l.getD (4 * k + j) 0) hj

theorem bufByte_eq_toList_getD (b : Vector Byte 64) (i : Nat) : bufByte b i = b.toList.getD i 0 := by
  rw [bufByte, List.getD_eq_getElem?_getD, Vector.getElem?_toList]

theorem bufByte_of_lt (b : Vector Byte 64) {i : Nat} (hi : i < 64) : bufByte b i = b[i] := by
  rw [bufByte, Vector.getElem?_eq_getElem hi, Option.getD_some]

theorem bufWord_toNat (b : Vector Byte 64) (k : Nat) :
    (bufWord b k).toNat = ((List.range 4).map fun i => 2 ^ (8 * i) * (b.toList.getD (k + i) 0).toNat).sum := by
  simp only [bufWord, packWord_toNat, bufByte_eq_toList_getD]
  simp [List.range_succ]
  omega

theorem errInfoWord_toNat (s : State) : (errInfoWord s).toNat = s.errSym.toNat + s.errPos.toNat * 2 ^ 8 := by
  simp only [errInfoWord, toNat_append_eq, BitVec.ofNat_eq_ofNat, BitVec.toNat_ofNat]
  omega

/-- A field widened to a bus word keeps its number (spec/10_state.md R23). -/
theorem setWidth_word_toNat {n : Nat} (x : BitVec n) (hn : n ≤ 32) : (x.setWidth 32).toNat = x.toNat :=
  BitVec.toNat_setWidth_of_le hn

/-- Every row of the read map, in arithmetic (R37). -/
theorem busRead_toNat {off : Nat} (s : State) (h4 : off % 4 = 0) : (busRead off s).toNat = readNat off s := by
  have hibuf : (0x40 ≤ off ∧ off ≤ 0x7C) ↔ (0x40 ≤ off ∧ off < 0x80) := by omega
  have hobuf : (0x80 ≤ off ∧ off ≤ 0xBC) ↔ (0x80 ≤ off ∧ off < 0xC0) := by omega
  simp only [busRead, readNat, hibuf, hobuf, apply_ite BitVec.toNat, statusWord_toNat, errInfoWord_toNat, low_half_toNat,
    high_half_toNat, setWidth_word_toNat _ (show 5 ≤ 32 by decide), setWidth_word_toNat _ (show 7 ≤ 32 by decide),
    bufWord_toNat, BitVec.ofNat_eq_ofNat, BitVec.toNat_ofNat, Nat.zero_mod]

theorem busRead_ibufWord {k : Nat} (hk : k < 16) (s : State) : busRead (0x40 + 4 * k) s = bufWord s.ibuf (4 * k) := by
  unfold busRead
  iterate 10 rw [if_neg (by omega)]
  rw [if_pos (by omega), Nat.add_sub_cancel_left]

theorem busRead_obufWord {k : Nat} (hk : k < 16) (s : State) : busRead (0x80 + 4 * k) s = bufWord s.obuf (4 * k) := by
  unfold busRead
  iterate 11 rw [if_neg (by omega)]
  rw [if_pos (by omega), Nat.add_sub_cancel_left]

theorem busRead_obufLen_toNat (s : State) : (busRead 0x20 s).toNat = s.obufLen.toNat :=
  setWidth_word_toNat s.obufLen (by decide)

/-- A read of a word of a buffer hands its four bytes to `t` (R41). -/
theorem step_read_bufWord {s : State} {off k : Nat} {b : Vector Byte 64} {rest : List Transaction}
    (h : AtAccess s (.read off 4) rest) (ho : off < 0x100) (h4 : off % 4 = 0) (hk : k < 16)
    (hb : busRead off s = bufWord b (4 * k)) :
    ∃ t, step s = .next t ∧ OnlyHost s t ∧ ∀ j : Fin 4,
      t.host.scratch.toNat / 2 ^ (8 * j.val) % 2 ^ 8 = (b[4 * k + j.val]'(by omega)).toNat := by
  refine ⟨_, step_read s off rest ho h4 h, rfl, fun j => ?_⟩
  have hbyte : byteOf (busRead off s) j.val = b[4 * k + j.val]'(by omega) := by
    rw [hb, byteOf_bufWord b _ j.isLt, bufByte_of_lt b (by omega)]
  rw [← hbyte, byteOf_toNat]
  rfl

/-- A step that makes no write and no reset leaves the unit as it was (spec/70_reset_and_hazards.md R114). -/
theorem onlyHost_of_step {s t : State} (h : step s = .next t)
    (hmade : made s = none ∨ made s = some .readText ∨ ∃ off size, made s = some (.read off size)) : OnlyHost s t := by
  obtain ⟨k, rfl⟩ | ⟨x, k, hm, -, hx⟩ := step_made s t h
  · rfl
  · obtain ⟨off, size, src, o, rfl, -, -⟩ | ⟨-, k', rfl⟩ | ⟨rfl, -⟩ := transact_cases x _ t hx
    · simp [hm] at hmade
    · rfl
    · simp [hm] at hmade

/-! The host's moves as equations of `step` (spec/30_encoding.md R55, R56). -/

/-- A write of a command's word used up, whatever source the word comes from. -/
theorem step_command_of_atAccess {s : State} {src : Src} {i : Instr} {rest : List Transaction}
    (h : AtAccess s (.write 0x00 4 src) rest) (hd : decode (srcValue src s) = .ok i) :
    step s = exec i { withRest rest s with cmdLast := srcValue src s } :=
  step_command s src rest i h hd

/-- A command's word given outright at the head of a host's pending transactions. -/
theorem step_command_of_pending (s : State) (k : HostSide) (rest : List Transaction) {w : Word} {i : Instr}
    (hd : decode w = .ok i) : step { s with host := { k with pending := .write 0x00 4 (.imm w) :: rest } } =
      exec i { s with cmdLast := w, host := { k with pending := rest } } :=
  step_command { s with host := { k with pending := .write 0x00 4 (.imm w) :: rest } } (.imm w) rest i rfl hd

/-- The host with a line taken. -/
theorem step_of_atLine {s : State} {l : Line} (h : AtLine s l) : step s = runLine l { s with host := lineTaken s } := by
  obtain ⟨hpending, hhalted, hline⟩ := h
  exact step_line s l hpending hhalted hline

theorem lineTaken_of_pending_nil {s : State} (h : s.host.pending = []) :
    { lineTaken s with pending := [] } = lineTaken s := by
  rw [← h, lineTaken]

/-- A line that reaches the bus is its transactions, made from the pending list. -/
theorem step_of_expand {s : State} {l : Line} {x : Transaction} {rest : List Transaction} (h : AtLine s l)
    (he : expand l = some (x :: rest)) : step s = step { s with host := { lineTaken s with pending := x :: rest } } := by
  rw [step_of_atLine h, runLine_expand l _ x rest he]
  exact (step_pending { s with host := { lineTaken s with pending := x :: rest } } x rest rfl).symm

/-- `beq` jumps where `t` is the immediate. -/
theorem step_beq {s : State} {imm : Word} {label : Nat} (h : AtLine s (.beq imm label)) : step s =
    .next (if s.host.scratch = imm then setLine label { s with host := lineTaken s } else { s with host := lineTaken s }) :=
  step_of_atLine h

/-- `bne` jumps where `t` is not the immediate. -/
theorem step_bne {s : State} {imm : Word} {label : Nat} (h : AtLine s (.bne imm label)) : step s =
    .next (if s.host.scratch = imm then { s with host := lineTaken s } else setLine label { s with host := lineTaken s }) :=
  step_of_atLine h

theorem step_noHostAccess {s : State} (hpending : s.host.pending = []) (hhalted : s.host.halted = false)
    (hline : s.host.script.length ≤ s.host.line) : step s = .refused .noHostAccess := by
  simp only [step, hostStep, hpending, hhalted, List.getElem?_eq_none hline, Bool.false_eq_true, if_false]

theorem step_hostHalted {s : State} (hpending : s.host.pending = []) (hhalted : s.host.halted = true) :
    step s = .refused .hostHalted := by
  simp only [step, hostStep, hpending, hhalted, if_true]

/-! The platform's view of the window (spec/20_memory.md R34, R37). -/

section
variable {addr size off : Nat} (v : Word) (s : State)

theorem memWrite_of_ok (h : admittedOffset ((addr : Int) - Config.base) size = .ok off) :
    memWrite addr size v s = busWrite off v s := by
  simp only [memWrite, h]

theorem memWrite_of_error {r : Refusal} (h : admittedOffset ((addr : Int) - Config.base) size = .error r) :
    memWrite addr size v s = .refused r := by
  simp only [memWrite, h]

theorem memRead_of_ok (h : admittedOffset ((addr : Int) - Config.base) size = .ok off) :
    memRead addr size s = .ok (busRead off s) := by
  simp only [memRead, h]

theorem memRead_of_error {r : Refusal} (h : admittedOffset ((addr : Int) - Config.base) size = .error r) :
    memRead addr size s = .error r := by
  simp only [memRead, h]

theorem admittedOffset_base_add (hoff : off < 256) (h4 : off % 4 = 0) :
    admittedOffset (((Config.base + off : Nat) : Int) - Config.base) 4 = .ok off := by
  rw [Nat.cast_add, add_sub_cancel_left, admittedOffset_nat off hoff h4]

theorem admittedOffset_outside (h : addr < Config.base ∨ Config.base + 256 ≤ addr) :
    ∃ r, admittedOffset ((addr : Int) - Config.base) size = .error r :=
  admittedOffset_error _ _ (by omega)

/-- A write's transaction is the platform's write at `BASE` plus its offset. -/
theorem transact_write_eq_memWrite (src : Src) :
    transact (.write ((addr : Int) - Config.base) size src) s = memWrite addr size (srcValue src s) s := by
  cases h : admittedOffset ((addr : Int) - Config.base) size with
  | ok o => simp only [transact, h, memWrite_of_ok _ s h]
  | error r => simp only [transact, h, memWrite_of_error _ s h]

/-- A read's transaction is the platform's read at `BASE` plus its offset. -/
theorem transact_read_of_memRead_ok (h : memRead addr size s = .ok v) :
    transact (.read ((addr : Int) - Config.base) size) s = .next (setScratch v s) := by
  cases ho : admittedOffset ((addr : Int) - Config.base) size with
  | ok o =>
    cases (memRead_of_ok s ho).symm.trans h
    simp only [transact, ho]
  | error r => cases (memRead_of_error s ho).symm.trans h

theorem transact_read_of_memRead_error {r : Refusal} (h : memRead addr size s = .error r) :
    transact (.read ((addr : Int) - Config.base) size) s = .refused r := by
  cases ho : admittedOffset ((addr : Int) - Config.base) size with
  | ok o => cases (memRead_of_ok s ho).symm.trans h
  | error r' =>
    cases (memRead_of_error s ho).symm.trans h
    simp only [transact, ho]

theorem memRead_setHost (k : HostSide) : memRead addr size (setHost k s) = memRead addr size s := by
  simp only [memRead, busRead_setHost]

end

end Sys2Proof.Machine

namespace Sys2Proof.Proofs

open Sys2Proof.Machine Sys2Proof.Safety

/-- Settles O25, row by row of the read map. -/
theorem readsReturnTheRegisterMap : Obligations.ReadsReturnTheRegisterMap := fun s off rest ho h4 h =>
  ⟨_, step_read s off rest ho h4 h, rfl, rfl, busRead_toNat s h4⟩

/-- Settles O32. -/
theorem onlyWritesAndResetsChangeTheUnit : Obligations.OnlyWritesAndResetsChangeTheUnit := fun _ _ => onlyHost_of_step

/-- Settles O1: seventeen words, decoded. -/
theorem opcodeMapWordsDecode : Obligations.OpcodeMapWordsDecode := by
  unfold Obligations.OpcodeMapWordsDecode
  decide

/-- Settles O4: each of the four ways makes a write of CMD the next transaction. -/
theorem stepRunsTheDecodedCommand : Obligations.StepRunsTheDecodedCommand := by
  refine fun s w i rest hw => ⟨fun h => ?_, fun h ht => ?_, fun h => ?_, ?_⟩
  · exact step_command_of_atAccess h hw
  · subst ht
    exact step_command_of_atAccess h hw
  · obtain rfl := (decode_eq_ok_iff w i).mp hw
    rw [← lineTaken_of_pending_nil h.left, step_of_expand h rfl]
    exact step_command_of_pending s (lineTaken s) [] hw
  · have hword : BitVec.ofNat 32 (w.toNat % 2 ^ 32) = w := by rw [Nat.mod_eq_of_lt w.isLt, BitVec.ofNat_toNat, BitVec.setWidth_eq]
    rw [State.withFetchWord, hword]
    exact step_command_of_pending s s.host s.host.pending hw

/-- Settles O21. -/
theorem resetFromAnyStateClearsTheUnit : Obligations.ResetFromAnyStateClearsTheUnit := fun s rest h =>
  ⟨_, step_pending s .reset rest h, rfl, rfl⟩

/-- Settles O31: a word is packed from its bytes, and a byte of a word is read back from it. -/
theorem bufferWordsAreLittleEndian : Obligations.BufferWordsAreLittleEndian := by
  refine ⟨fun s k rest h => ?_, fun s k src rest h => ?_, fun s k rest h => ?_, fun s => ⟨?_, ?_⟩, by decide⟩
  · exact step_read_bufWord h (by omega) (by omega) k.isLt (busRead_ibufWord k.isLt s)
  · refine ⟨_, step_write_ibufWord k.isLt h, fun j => ?_⟩
    rw [← byteOf_toNat]
    exact congrArg BitVec.toNat (storeWord_get_of_mem s.ibuf (4 * k.val) j.val _ j.isLt (by omega))
  · exact step_read_bufWord h (by omega) (by omega) k.isLt (busRead_obufWord k.isLt s)
  · rw [busRead_toNat s (by decide), busRead_toNat s (by decide)]
    exact Nat.mod_add_div' ..
  · rw [busRead_toNat s (by decide), busRead_toNat s (by decide)]
    exact Nat.mod_add_div' ..

/-- Settles O33: a transaction's offset is an address less `BASE`. -/
theorem windowIsPlacedAtBase : Obligations.WindowIsPlacedAtBase := by
  refine ⟨Nat.dvd_mul_right _ _, fun s v => ⟨fun off hoff h4 => ?_, fun addr size h => ?_⟩,
    fun s addr size rest => ⟨fun src h => ?_, fun h => ⟨fun v hv => ?_, fun r hr => ?_⟩⟩⟩
  · have hadmitted := admittedOffset_base_add hoff h4
    exact ⟨memWrite_of_ok v s hadmitted, memRead_of_ok s hadmitted⟩
  · obtain ⟨r, hr⟩ := admittedOffset_outside (size := size) h
    exact ⟨⟨r, memWrite_of_error v s hr⟩, r, memRead_of_error s hr⟩
  · rw [step_pending s _ _ h, transact_write_eq_memWrite]
    cases src <;> rfl
  · have hmemRead : memRead addr size (setPending rest s) = .ok v := (memRead_setHost s _).trans hv
    exact ⟨_, (step_pending s _ _ h).trans (transact_read_of_memRead_ok v _ hmemRead), rfl, rfl⟩
  · have hmemRead : memRead addr size (setPending rest s) = .error r := (memRead_setHost s _).trans hr
    exact (step_pending s _ _ h).trans (transact_read_of_memRead_error _ hmemRead)

/-- Settles O34: the four lines change the host's side alone, and the two ends of a script are the two refusals. -/
theorem scriptControlFlowIsTheHostsOwn : Obligations.ScriptControlFlowIsTheHostsOwn := by
  refine ⟨fun s imm label h => ?_, fun s imm label h => ?_, fun s imm h => ?_, fun s h => ?_,
    fun s hpending hhalted hline => step_noHostAccess hpending hhalted hline⟩
  · rw [step_beq h]
    split <;> rfl
  · rw [step_bne h]
    split <;> rfl
  · exact ⟨_, step_of_atLine h, rfl, rfl, BitVec.toNat_and _ _⟩
  · exact ⟨_, step_of_atLine h, rfl, step_hostHalted h.left rfl⟩

end Sys2Proof.Proofs

namespace Sys2Proof.Machine

open Sys2Proof.Safety

/-! The lines of several accesses: `rdstr`, `lstr` and the digits of a checksum (spec/30_encoding.md R56, spec/43_checksum.md
R83), as runs of the machine. -/

theorem step_readText {s : State} {rest : List Transaction} (h : AtAccess s .readText rest) :
    step s = .next (setPending (textReads (busRead 0x20 s).toNat ++ rest) (setScratch (busRead 0x20 s) s)) := by
  have hread : busRead (offsetOf .obufLen) (setPending rest s) = busRead 0x20 s := busRead_setHost _ _ s
  rw [step_pending s _ _ h, transact, hread]
  rfl

theorem textReads_length (n : Nat) : (textReads n).length = wordsFor n := by
  rw [textReads, List.length_map, List.length_range]

theorem textReads_getElem? {n k : Nat} (hk : k < (textReads n).length) :
    (textReads n)[k]? = some (.read ((0x80 + 4 * k : Nat) : Int) 4) := by
  rw [textReads_length] at hk
  simp [textReads, hk]

/-- The words of a text, in order. -/
def textWords (l : List Byte) : List Word := (List.range (wordsFor l.length)).map (textWord l)

theorem textWords_length (l : List Byte) : (textWords l).length = wordsFor l.length := by
  rw [textWords, List.length_map, List.length_range]

theorem loadText_eq_mapIdx (l : List Byte) : loadText l =
    (textWords l).mapIdx (fun k v => Transaction.write (0x40 + 4 * k : Nat) 4 (.imm v)) ++
      [.write 0x1C 4 (.imm (BitVec.ofNat 32 l.length))] := by
  refine congrArg (· ++ _) (List.ext_getElem (by simp [textWords]) fun k _ _ => ?_)
  simp [textWords]

theorem byteOf_textWords {l : List Byte} {k j : Nat} (hk : k < (textWords l).length) (hj : j < 4) :
    byteOf ((textWords l).getD k 0) j = l.getD (4 * k + j) 0 := by
  have hword : (textWords l).getD k 0 = textWord l k := by
    rw [List.getD_eq_getElem _ _ hk]
    simp [textWords]
  rw [hword, byteOf_textWord l k hj]

/-- `b` with the first `m` words of the text `l` stored from byte 0 on. -/
def storeText (l : List Byte) (b : Vector Byte 64) (m : Nat) : Vector Byte 64 :=
  (List.range m).foldl (fun b k => storeWord b (4 * k) (textWord l k)) b

theorem storeText_succ (l : List Byte) (b : Vector Byte 64) (m : Nat) :
    storeText l b (m + 1) = storeWord (storeText l b m) (4 * m) (textWord l m) := by
  rw [storeText, List.range_succ, List.foldl_append]
  rfl

/-- The bytes of the words stored are those of the text, with 0 for the missing ones, and no other byte changes. -/
theorem storeText_get (l : List Byte) (b : Vector Byte 64) {m i : Nat} (hm : m ≤ 16) (hi : i < 64) :
    (storeText l b m)[i] = if i < 4 * m then l.getD i 0 else b[i] := by
  induction m with
  | zero => rfl
  | succ m ih =>
    rw [storeText_succ]
    by_cases hmem : i / 4 = m
    · obtain ⟨j, hj, rfl⟩ : ∃ j < 4, i = 4 * m + j := ⟨i % 4, by omega, by omega⟩
      rw [storeWord_get_of_mem _ _ _ _ hj hi, byteOf_textWord l m hj, if_pos (by omega)]
    · rw [storeWord_get_of_not_mem _ _ _ _ hi (by omega), ih (by omega)]
      exact if_congr (by omega) rfl rfl

/-- The words of `lstr` are stored one a step. -/
theorem run_textWrites (l : List Byte) {m : Nat} (hm : m ≤ 16) (n : Nat) (s : State) (rest : List Transaction)
    (h : s.host.pending = (List.range m).map (fun k => Transaction.write (0x40 + 4 * k : Nat) 4 (.imm (textWord l k))) ++ rest) :
    core.run (m + n) s = core.run n { withRest rest s with ibuf := storeText l s.ibuf m } := by
  induction m generalizing n rest with
  | zero =>
    subst h
    rw [Nat.zero_add]
    rfl
  | succ m ih =>
    rw [List.range_succ, List.map_append, List.append_assoc] at h
    rw [Nat.add_right_comm, Nat.add_assoc, ih (by omega) (n + 1) _ h]
    rw [storeText_succ]
    exact core_run_succ n _ _ (step_write_ibufWord (k := m) (src := .imm (textWord l m)) (rest := rest) (by omega) rfl)

/-- `s` once the accesses of `lstr` have been made, with `rest` to follow. -/
def withTextLoaded (l : List Byte) (rest : List Transaction) (s : State) : State :=
  setIbufLen (BitVec.ofNat 32 l.length) { withRest rest s with ibuf := storeText l s.ibuf (wordsFor l.length) }

/-- The run of the accesses of `lstr`. -/
theorem run_loadText {l : List Byte} (hl : l.length ≤ 64) (s : State) (rest : List Transaction)
    (h : s.host.pending = loadText l ++ rest) : core.run (wordsFor l.length + 1) s = .next (withTextLoaded l rest s) := by
  have hwords : wordsFor l.length ≤ 16 := by rw [wordsFor]; omega
  rw [loadText, List.append_assoc] at h
  rw [run_textWrites l hwords 1 s _ h]
  exact core_run_succ 0 _ _ (step_write _ 0x1C (.imm (BitVec.ofNat 32 l.length)) rest (by decide) rfl rfl)

theorem withTextLoaded_ibuf_get {l : List Byte} (hl : l.length ≤ 64) (rest : List Transaction) (s : State) {i : Nat} (hi : i < 64) :
    (withTextLoaded l rest s).ibuf[i] = if i < 4 * wordsFor l.length then l.getD i 0 else s.ibuf[i] :=
  storeText_get l s.ibuf (by rw [wordsFor]; omega) hi

theorem withTextLoaded_ibufLen {l : List Byte} (hl : l.length ≤ 64) (rest : List Transaction) (s : State) :
    (withTextLoaded l rest s).ibufLen.toNat = l.length := by
  rw [withTextLoaded, setIbufLen_toNat, BitVec.toNat_ofNat]
  omega

/-- The input text is then the text of the line (R56). -/
theorem inputText_withTextLoaded {l : List Byte} (hl : l.length ≤ 64) (rest : List Transaction) (s : State) :
    inputText (withTextLoaded l rest s) = l := by
  rw [inputText, withTextLoaded_ibufLen hl]
  refine List.ext_getElem (by simpa using hl) fun i _ hi => ?_
  rw [List.getElem_take, Vector.getElem_toList, withTextLoaded_ibuf_get hl rest s (by omega), if_pos (by rw [wordsFor]; omega),
    List.getD_eq_getElem _ _ hi]

/-- `s` once a digit has been written to `ARG_LO` and folded by CSUM_STEP, with `rest` to follow. -/
def withDigitFolded (d : Digit) (rest : List Transaction) (s : State) : State :=
  finish .none 0 0 (setAcc (csStep s.acc d) (setCmdLast (encode .csumStep) (setArgLo (d.setWidth 32) (withRest rest s))))

theorem finish_none_sticky (y : Byte) (p : Nat) (s : State) : (finish .none y p s).sticky = s.sticky := Bool.or_false _

theorem withDigitFolded_sticky (d : Digit) (rest : List Transaction) (s : State) : (withDigitFolded d rest s).sticky = s.sticky :=
  finish_none_sticky ..

/-- With `ARG_HI` zero, the write of a digit to `ARG_LO` makes the digit the operand (spec/10_state.md R26). -/
theorem setArgLo_digit {s : State} (harg : s.arg.toNat < 2 ^ 32) (d : Digit) :
    (setArgLo (d.setWidth 32) s).arg.toNat = d.toNat := by
  rw [setArgLo_toNat, setWidth_word_toNat d (by decide)]
  omega

theorem withDigitFolded_arg_lt {s : State} (harg : s.arg.toNat < 2 ^ 32) (d : Digit) (rest : List Transaction) :
    (withDigitFolded d rest s).arg.toNat < 2 ^ 32 :=
  (setArgLo_digit harg d).trans_lt (d.isLt.trans (by decide))

theorem exec_csumStep_of_digit {s : State} {d : Digit} (h : argNat s = d.toNat) :
    exec .csumStep s = .next (finish .none 0 0 (setAcc (csStep s.acc d) s)) := by
  rw [exec_csumStep_of_lt s (h.trans_lt d.isLt), h, BitVec.ofNat_toNat, BitVec.setWidth_eq]

/-- The second step of a digit folds it. -/
theorem step_csumStep_digit {s : State} (harg : s.arg.toNat < 2 ^ 32) (d : Digit) (rest : List Transaction) :
    step (setArgLo (d.setWidth 32) (withRest (.write 0x00 4 (.imm 0x00000007) :: rest) s)) = .next (withDigitFolded d rest s) := by
  have hfold := exec_csumStep_of_digit (s := setCmdLast (encode .csumStep) (setArgLo (d.setWidth 32) (withRest rest s)))
    (setArgLo_digit harg d)
  exact (step_command _ (.imm 0x00000007) rest .csumStep rfl (decode_encode .csumStep)).trans hfold

/-- The two steps of a digit. -/
theorem run_digit {s : State} {d : Digit} {rest : List Transaction} (n : Nat) (harg : s.arg.toNat < 2 ^ 32)
    (h : s.host.pending = .write 0x08 4 (.imm (d.setWidth 32)) :: .write 0x00 4 (.imm 0x00000007) :: rest) :
    core.run (n + 2) s = core.run n (withDigitFolded d rest s) := by
  rw [core_run_succ (n + 1) _ _ (step_write s 0x08 _ _ (by decide) rfl h)]
  exact core_run_succ n _ _ (step_csumStep_digit harg d rest)

end Sys2Proof.Machine

namespace Sys2Proof.Proofs

open Sys2Proof.Machine Sys2Proof.Safety

/-- Settles O35: each line by its expansion, `lstr` by the bytes of its words, `rdstr` by the length it reads first. -/
theorem scriptLinesExpandToTransactions : Obligations.ScriptLinesExpandToTransactions := by
  refine ⟨fun _ _ => rfl, fun _ => rfl, fun _ _ => ⟨rfl, rfl⟩, fun _ => rfl, fun bytes hlen => ?lstr, fun v => ?li64, rfl, rfl,
    rfl, fun s rest h _ => ?rdstr, fun s l x rest h he => step_of_expand h he⟩
  case lstr =>
    refine ⟨textWords bytes, ?_, ?_, ?_, fun k hk j hj => ?_⟩
    · rw [expand, if_pos hlen, loadText_eq_mapIdx]
    · rw [textWords_length, wordsFor]
      omega
    · rw [textWords_length, wordsFor]
      omega
    · rw [← byteOf_toNat, byteOf_textWords hk hj]
  case li64 =>
    refine ⟨_, _, rfl, ?_⟩
    rw [low_half_toNat, high_half_toNat]
    omega
  case rdstr =>
    have hlen := busRead_obufLen_toNat s
    have hreads : (textReads (busRead 0x20 s).toNat).length = (s.obufLen.toNat + 3) / 4 := by
      rw [textReads_length, hlen, wordsFor]
    exact ⟨_, _, step_readText h, rfl, hlen, rfl, by omega, by omega, fun k hk => textReads_getElem? hk⟩

/-- Settles O36. -/
theorem lstrLoadsTheText : Obligations.LstrLoadsTheText := by
  intro s bytes h hlen
  obtain ⟨x, rest, hload⟩ : ∃ x rest, loadText bytes = x :: rest := List.exists_cons_of_ne_nil (by simp [loadText])
  have hexpand : expand (.lstr bytes) = some (x :: rest) := by rw [expand, if_pos hlen, hload]
  have hrun := run_loadText hlen { s with host := { lineTaken s with pending := x :: rest } } [] (by rw [hload, List.append_nil])
  refine ⟨_, (core_run_congr _ _ _ (step_of_expand h hexpand)).trans hrun, inputText_withTextLoaded hlen _ _,
    lineTaken_of_pending_nil h.left, rfl, fun j => ⟨fun hge hlt => ?_, fun hge => ?_⟩⟩
  · rw [withTextLoaded_ibuf_get hlen _ _ j.isLt, wordsFor, if_pos hlt, List.getD_eq_default _ _ hge]
  · rw [withTextLoaded_ibuf_get hlen _ _ j.isLt, wordsFor, if_neg (Nat.not_lt.mpr hge)]

/-- Settles O39, by induction on the digits still to be written. -/
theorem stepsFoldTheChecksum : Obligations.StepsFoldTheChecksum := by
  intro ds
  induction ds with
  | nil =>
    intro s rest _ h
    refine ⟨s, rfl, rfl, ?_, rfl, rfl, rfl, rfl, rfl, rfl⟩
    subst h
    rfl
  | cons d ds ih =>
    intro s rest harg h
    obtain ⟨t, hrun, hacc, hhost, hres, hobuf, hobufLen, hibuf, hibufLen, hsticky⟩ :=
      ih (withDigitFolded d _ s) rest (withDigitFolded_arg_lt harg d _) rfl
    refine ⟨t, (run_digit (2 * ds.length) harg h).trans hrun, ?_, hhost, hres, hobuf, hobufLen, hibuf, hibufLen,
      hsticky.trans (withDigitFolded_sticky ..)⟩
    rw [hacc, List.map_cons, List.foldl_cons, ← csStep_toNat]
    rfl

end Sys2Proof.Proofs

namespace Sys2Proof.Machine

/-! The permutation (spec/42_permutation.md R74): the two constants are inverse modulo 2^35, and COPRIME is odd. -/

theorem mul_mul_mod_of_inverse {a b m n : Nat} (hab : a * b % m = 1) (hn : n < m) : a * (b * n % m) % m = n := by
  rw [Nat.mul_mod_mod, ← mul_assoc, ← Nat.mod_mul_mod, hab, one_mul, Nat.mod_eq_of_lt hn]

theorem unmask_mask {n : Nat} (hn : n < 2 ^ 35) : unmask (mask n) = n := by
  rw [unmask_eq, mask_eq]
  exact mul_mul_mod_of_inverse (by norm_num) hn

theorem mask_unmask {n : Nat} (hn : n < 2 ^ 35) : mask (unmask n) = n := by
  rw [unmask_eq, mask_eq]
  exact mul_mul_mod_of_inverse (by norm_num) hn

/-- Neither the odd factor nor the reduction changes which powers of 2 up to 2^35 divide a number. -/
theorem two_pow_dvd_mask_iff {k : Nat} (hk : k ≤ 35) (n : Nat) : 2 ^ k ∣ mask n ↔ 2 ^ k ∣ n := by
  have hodd : (2 ^ k).Coprime 5777025351 := Nat.Coprime.pow_left k (by norm_num)
  rw [mask_eq, Nat.dvd_mod_iff (pow_dvd_pow 2 hk), hodd.dvd_mul_left]

theorem mask_ne_zero {n : Nat} (hpos : 0 < n) (hn : n < 2 ^ 35) : mask n ≠ 0 := by
  intro h
  have hdvd : 2 ^ 35 ∣ n := (two_pow_dvd_mask_iff le_rfl n).mp (h ▸ Nat.dvd_zero _)
  exact absurd (Nat.le_of_dvd hpos hdvd) (Nat.not_le.mpr hn)

theorem mask_mod (n : Nat) : mask (n % 2 ^ 35) = mask n := by
  rw [mask_eq, mask_eq, Nat.mul_mod_mod]

section
variable {s t : State}

theorem res_of_exec_mask (h : exec .mask s = .next t) : t.res.toNat = mask (argNat s) := by
  obtain rfl := Host.Outcome.next.inj (h.symm.trans (exec_mask s))
  exact Nat.mod_eq_of_lt ((mask_lt _).trans (by decide))

theorem res_of_exec_unmask (h : exec .unmask s = .next t) : t.res.toNat = unmask (argNat s) := by
  obtain rfl := Host.Outcome.next.inj (h.symm.trans (exec_unmask s))
  exact Nat.mod_eq_of_lt ((unmask_lt _).trans (by decide))

end

end Sys2Proof.Machine

namespace Sys2Proof.Proofs

open Sys2Proof.Machine Sys2Proof.Safety

/-- Settles O9. -/
theorem maskMultipliesByCoprime : Obligations.MaskMultipliesByCoprime := by
  refine ⟨by decide, fun s => ?_⟩
  rw [← mask_eq]
  exact onlyRes_of_finish_setRes ((mask_lt _).trans (by decide)) (exec_mask s)

/-- Settles O10. -/
theorem unmaskMultipliesByTheInverse : Obligations.UnmaskMultipliesByTheInverse := by
  refine ⟨by decide, fun s => ?_⟩
  rw [← unmask_eq]
  exact onlyRes_of_finish_setRes ((unmask_lt _).trans (by decide)) (exec_unmask s)

/-- Settles O37: the result of the first command is the operand of the second. -/
theorem maskAndUnmaskAreInverse : Obligations.MaskAndUnmaskAreInverse := by
  refine fun s t u t' hs => ⟨fun hmask harg hunmask => ?_, fun hunmask harg hmask => ?_⟩
  · apply BitVec.eq_of_toNat_eq
    rw [res_of_exec_unmask hunmask, argNat, harg, res_of_exec_mask hmask, unmask_mask hs]
  · apply BitVec.eq_of_toNat_eq
    rw [res_of_exec_mask hmask, argNat, harg, res_of_exec_unmask hunmask, mask_unmask hs]

/-- Settles O38. -/
theorem maskKeepsTrailingZeros : Obligations.MaskKeepsTrailingZeros := by
  intro s t h
  rw [res_of_exec_mask h]
  refine ⟨fun k hk => two_pow_dvd_mask_iff hk _, mask_ne_zero, fun s' t' h' harg => BitVec.eq_of_toNat_eq ?_⟩
  rw [res_of_exec_mask h', res_of_exec_mask h, argNat, harg, mask_mod]

end Sys2Proof.Proofs

namespace Sys2Proof.Machine

/-! The checksum as a linear map (spec/43_checksum.md R77 to R80): a step doubles the sum of the accumulator and the digit in
a field of 32 elements, so what a change of a digit adds to the checksum is that change doubled once for each step. -/

/-- One step's doubling. -/
def csDouble (x : Digit) : Digit := csStep x 0

theorem csStep_eq_csDouble (a d : Digit) : csStep a d = csDouble (a ^^^ d) := by
  have hzero : (0 : Digit).toNat = 0 := rfl
  rw [csDouble, csStep, csStep, BitVec.toNat_xor, hzero, Nat.xor_zero]

theorem csDouble_injective : Function.Injective csDouble := by
  have h : ∀ x y : Digit, csDouble x = csDouble y → x = y := by decide +kernel
  exact h

theorem csDouble_xor : ∀ x y : Digit, csDouble (x ^^^ y) = csDouble x ^^^ csDouble y := by decide +kernel

theorem csDouble_eq_zero_iff (x : Digit) : csDouble x = 0 ↔ x = 0 :=
  csDouble_injective.eq_iff' rfl

/-- Doubling has no fixed point but 0. -/
theorem eq_zero_of_isFixedPt_csDouble : ∀ x : Digit, Function.IsFixedPt csDouble x → x = 0 := by
  unfold Function.IsFixedPt
  decide +kernel

/-- Doubling 31 times is the identity: there are 31 digits other than 0 (R80). -/
theorem isPeriodicPt_csDouble_31 : ∀ x : Digit, Function.IsPeriodicPt csDouble 31 x := by
  unfold Function.IsPeriodicPt Function.IsFixedPt
  decide +kernel

/-- As 31 is prime, doubling fewer times fixes 0 alone. -/
theorem eq_zero_of_isPeriodicPt_csDouble {n : Nat} {x : Digit} (hpos : 0 < n) (hn : n < 31)
    (h : Function.IsPeriodicPt csDouble n x) : x = 0 := by
  have hcoprime : Nat.gcd n 31 = 1 := Nat.Coprime.symm ((by norm_num : Nat.Prime 31).coprime_iff_not_dvd.mpr
    (Nat.not_dvd_of_pos_of_lt hpos hn))
  have hgcd := h.gcd (isPeriodicPt_csDouble_31 x)
  rw [hcoprime] at hgcd
  exact eq_zero_of_isFixedPt_csDouble x hgcd

/-- A change `e` of the digit is doubled by its step. -/
theorem csStep_xor_right (a d e : Digit) : csStep a (d ^^^ e) = csStep a d ^^^ csDouble e := by
  rw [csStep_eq_csDouble, csStep_eq_csDouble, ← csDouble_xor, BitVec.xor_assoc]

theorem csStep_comm (a d : Digit) : csStep a d = csStep d a := by
  rw [csStep_eq_csDouble, csStep_eq_csDouble, BitVec.xor_comm]

/-- A change `e` of the accumulator is doubled by one step. -/
theorem csStep_xor_left (a d e : Digit) : csStep (a ^^^ e) d = csStep a d ^^^ csDouble e := by
  rw [csStep_comm, csStep_xor_right, csStep_comm]

/-- A change `e` of the accumulator is doubled by every step that follows. -/
theorem foldl_csStep_xor (ds : List Digit) (a e : Digit) :
    ds.foldl csStep (a ^^^ e) = ds.foldl csStep a ^^^ csDouble^[ds.length] e := by
  induction ds generalizing a e with
  | nil => rfl
  | cons d ds ih =>
    rw [List.foldl_cons, List.foldl_cons, csStep_xor_left, ih, List.length_cons, Function.iterate_succ_apply]

theorem csStep_injective_right (a : Digit) : Function.Injective (csStep a) := by
  intro d e h
  rw [csStep_eq_csDouble, csStep_eq_csDouble] at h
  exact (BitVec.xor_right_inj a).mp (csDouble_injective h)

theorem foldl_csStep_injective (ds : List Digit) : Function.Injective fun a => ds.foldl csStep a := by
  induction ds with
  | nil => exact fun _ _ h => h
  | cons d ds ih =>
    intro a b h
    have hstep : csStep a d = csStep b d := ih h
    rw [csStep_comm a, csStep_comm b] at hstep
    exact csStep_injective_right d hstep

theorem checksum_append_cons (ds es : List Digit) (d : Digit) :
    checksum (ds ++ d :: es) = es.foldl csStep (csStep (checksum ds) d) := by
  rw [checksum_append, List.foldl_cons]

/-- A sequence is checked by the one digit that is its checksum (R79). -/
theorem checksum_append_singleton_eq_zero_iff (ds : List Digit) (c : Digit) :
    checksum (ds ++ [c]) = 0 ↔ c = checksum ds := by
  rw [checksum_append_cons, List.foldl_nil, csStep_eq_csDouble, csDouble_eq_zero_iff]
  exact BitVec.xor_eq_zero_iff.trans eq_comm

/-- Two sequences that differ in one digit have different checksums (R80 (d)). -/
theorem checksum_substitution_ne (before after : List Digit) {a b : Digit} (h : a ≠ b) :
    checksum (before ++ b :: after) ≠ checksum (before ++ a :: after) := by
  rw [checksum_append_cons, checksum_append_cons]
  exact fun heq => h (csStep_injective_right _ (foldl_csStep_injective after heq)).symm

/-- A swap keeps the checksum exactly when the digits' difference comes back after as many doublings as they stand apart. -/
theorem checksum_swap_eq_iff (before mid after : List Digit) (a b : Digit) :
    checksum (before ++ b :: mid ++ a :: after) = checksum (before ++ a :: mid ++ b :: after) ↔
      Function.IsPeriodicPt csDouble (mid.length + 1) (a ^^^ b) := by
  obtain ⟨e, rfl⟩ : ∃ e, b = a ^^^ e := ⟨a ^^^ b, by rw [← BitVec.xor_assoc, BitVec.xor_self, BitVec.zero_xor]⟩
  have hdiff : a ^^^ (a ^^^ e) = e := by rw [← BitVec.xor_assoc, BitVec.xor_self, BitVec.zero_xor]
  have hfold (x y : Digit) : checksum (before ++ x :: mid ++ y :: after) =
      after.foldl csStep (csStep (mid.foldl csStep (csStep (checksum before) x)) y) := by
    rw [checksum_append_cons, checksum_append_cons]
  rw [hdiff, hfold, hfold, (foldl_csStep_injective after).eq_iff, csStep_xor_right, foldl_csStep_xor,
    ← Function.iterate_succ_apply, csStep_xor_left, csStep_xor_right, BitVec.xor_right_inj, csDouble_injective.eq_iff]
  rfl

/-- A swap of two different digits at a distance of 1 to 30 changes the checksum (R80 (e)). -/
theorem checksum_swap_ne (before after : List Digit) {mid : List Digit} {a b : Digit} (h : a ≠ b)
    (hmid : mid.length + 1 ≤ 30) :
    checksum (before ++ b :: mid ++ a :: after) ≠ checksum (before ++ a :: mid ++ b :: after) := by
  rw [Ne, checksum_swap_eq_iff]
  intro hperiodic
  exact h (BitVec.xor_eq_zero_iff.mp (eq_zero_of_isPeriodicPt_csDouble (Nat.succ_pos _) (by omega) hperiodic))

end Sys2Proof.Machine

namespace Sys2Proof.Proofs

open Sys2Proof.Machine

/-- Settles O40. -/
theorem checkDigitIsUnique : Obligations.CheckDigitIsUnique := checksum_append_singleton_eq_zero_iff

/-- Settles O41. -/
theorem checksumDetectsEverySubstitution : Obligations.ChecksumDetectsEverySubstitution :=
  fun before after _ _ hne hvalid => hvalid ▸ checksum_substitution_ne before after hne

/-- Settles O42: at distance 31 the difference has come back, and at no smaller distance does it. -/
theorem checksumDetectsTranspositions : Obligations.ChecksumDetectsTranspositions := by
  refine ⟨fun before mid after a b hne hmid hvalid => hvalid ▸ checksum_swap_ne before after hne hmid,
    fun before mid after a b hmid => Eq.symm ?_⟩
  rw [checksum_swap_eq_iff, hmid]
  exact isPeriodicPt_csDouble_31 _

end Sys2Proof.Proofs

namespace Sys2Proof.Machine

open Sys2Proof.Safety

/-! Digit sequences (spec/44_codec.md R85 to R87): their values, lengths and positions, and the arithmetic of Safety over
them. -/

/-- Induction on a number by its base-32 digits, from the last to the first. -/
theorem base32_induction {P : Nat → Prop} (zero : P 0) (next : ∀ h ≠ 0, P (h / 32) → P h) (h : Nat) : P h := by
  induction h using Nat.strong_induction_on with
  | _ h ih =>
    by_cases h0 : h = 0
    · exact h0 ▸ zero
    · exact next h h0 (ih _ (Nat.div_lt_self (Nat.pos_of_ne_zero h0) (by decide)))

/-- The last digit of a number. -/
theorem lastDigit_toNat (h : Nat) : (BitVec.ofNat 5 (h % 32)).toNat = h % 32 :=
  Nat.mod_eq_of_lt (Nat.mod_lt _ (by decide))

theorem fromDigits_toDigits (h : Nat) : fromDigits (toDigits h) = h := by
  induction h using base32_induction with
  | zero => rfl
  | next h h0 ih => rw [toDigits_pos h h0, fromDigits_append_singleton, ih, lastDigit_toNat, Nat.div_add_mod']

theorem fromDigits_lt (ds : List Digit) : fromDigits ds < 32 ^ ds.length := by
  induction ds using List.reverseRecOn with
  | nil => exact Nat.one_pos
  | append_singleton ds d ih =>
    have hd : d.toNat < 32 := d.isLt
    rw [fromDigits_append_singleton, List.length_append, List.length_singleton, Nat.pow_succ]
    omega

theorem toDigits_length_le_iff (k h : Nat) : (toDigits h).length ≤ k ↔ h < 32 ^ k := by
  refine ⟨fun hlen => ?_, toDigits_length_le k h⟩
  calc
    h = fromDigits (toDigits h) := (fromDigits_toDigits h).symm
    _ < 32 ^ (toDigits h).length := fromDigits_lt _
    _ ≤ 32 ^ k := Nat.pow_le_pow_right (by decide) hlen

/-- There is no leading zero (R85). -/
theorem toDigits_head_ne_zero (h : Nat) : ∀ d ∈ (toDigits h).head?, d ≠ 0 := by
  induction h using base32_induction with
  | zero => exact nofun
  | next h h0 ih =>
    rw [toDigits_pos h h0]
    cases hhigh : toDigits (h / 32) with
    | cons e es =>
      rw [hhigh] at ih
      exact ih
    | nil =>
      have hsmall : h / 32 = 0 := by rw [← fromDigits_toDigits (h / 32), hhigh, fromDigits, List.foldl_nil]
      rintro d ⟨⟩ hd
      have hlast : h % 32 = 0 := (lastDigit_toNat h).symm.trans (congrArg BitVec.toNat hd)
      omega

theorem fromDigits_replicate_append (n : Nat) (ds : List Digit) : fromDigits (List.replicate n 0 ++ ds) = fromDigits ds := by
  induction n with
  | zero => rfl
  | succ n ih => exact ih

theorem padDigits_length (ds : List Digit) : (padDigits ds).length = max 5 ds.length := by
  rw [padDigits, padMin, List.length_append, List.length_replicate]
  omega

theorem fromDigits_bodyDigits (n : Nat) : fromDigits (bodyDigits n) = mask n := by
  rw [bodyDigits, padDigits, fromDigits_replicate_append, fromDigits_toDigits]

theorem fromDigits_eq_valueNat (ds : List Digit) : fromDigits ds = valueNat (ds.map (·.toNat)) := by
  simp only [fromDigits, valueNat, List.foldl_map, Nat.mul_comm]

theorem foldl_csStep_toNat (ds : List Digit) (a : Digit) :
    (ds.foldl csStep a).toNat = (ds.map (·.toNat)).foldl stepNat a.toNat := by
  induction ds generalizing a with
  | nil => rfl
  | cons d ds ih => rw [List.foldl_cons, ih, List.map_cons, List.foldl_cons, csStep_toNat]

theorem checksum_toNat (ds : List Digit) : (checksum ds).toNat = checkNat (ds.map (·.toNat)) := foldl_csStep_toNat ds 0

/-- The `len` lowest base-32 digits of a number by position, most significant first. -/
def digitsAt (len h : Nat) : List Nat := (List.range len).map fun j => h / 32 ^ (len - 1 - j) % 32

theorem bodyNat_eq_digitsAt (h : Nat) : bodyNat h = digitsAt (bodyLength h) h := rfl

theorem digitsAt_succ (len h : Nat) : digitsAt (len + 1) h = digitsAt len (h / 32) ++ [h % 32] := by
  have hlast : len + 1 - 1 - len = 0 := by omega
  rw [digitsAt, List.range_succ, List.map_append, List.map_singleton, hlast, Nat.pow_zero, Nat.div_one, digitsAt]
  refine congrArg (· ++ _) (List.map_congr_left fun j hj => ?_)
  have hpos : len + 1 - 1 - j = len - 1 - j + 1 := by
    have := List.mem_range.mp hj
    omega
  rw [hpos, Nat.div_div_eq_div_mul, Nat.pow_succ']

theorem digitsAt_zero (len : Nat) : digitsAt len 0 = List.replicate len 0 := by
  simp [digitsAt, List.map_const']

/-- The digits of the loop, with zeros put in front, are the digits by position. -/
theorem replicate_append_toDigits {len h : Nat} (hlen : (toDigits h).length ≤ len) :
    List.replicate (len - (toDigits h).length) 0 ++ (toDigits h).map (·.toNat) = digitsAt len h := by
  induction len generalizing h with
  | zero =>
    obtain rfl : h = 0 := by simpa using (toDigits_length_le_iff 0 h).mp hlen
    rfl
  | succ len ih =>
    by_cases h0 : h = 0
    · subst h0
      rw [digitsAt_zero, toDigits_zero, List.map_nil, List.append_nil, List.length_nil, Nat.sub_zero]
    · rw [toDigits_pos h h0, List.length_append, List.length_singleton] at hlen ⊢
      rw [digitsAt_succ, ← ih (Nat.le_of_succ_le_succ hlen), Nat.add_sub_add_right, List.map_append, List.append_assoc,
        List.map_singleton, lastDigit_toNat]

theorem bodyLength_eq_max {h : Nat} (hh : h < 32 ^ 7) : bodyLength h = max 5 (toDigits h).length := by
  have h5 := toDigits_length_le_iff 5 h
  have h6 := toDigits_length_le_iff 6 h
  have h7 := toDigits_length_le_iff 7 h
  unfold bodyLength
  split_ifs <;> omega

theorem mask_lt_pow (n : Nat) : mask n < 32 ^ 7 := (mask_lt n).trans_eq (by norm_num)

theorem bodyDigits_length_eq (n : Nat) : (bodyDigits n).length = bodyLength (mask n) := by
  rw [bodyDigits, padDigits_length, bodyLength_eq_max (mask_lt_pow n)]

/-- The padded digits of a masked value are its digits by position (R86, R90). -/
theorem bodyDigits_toNat (n : Nat) : (bodyDigits n).map (·.toNat) = bodyNat (mask n) := by
  have hmax := bodyLength_eq_max (mask_lt_pow n)
  have hpad : bodyLength (mask n) - (toDigits (mask n)).length = padMin - (toDigits (mask n)).length := by
    rw [padMin]
    omega
  rw [bodyNat_eq_digitsAt, ← replicate_append_toDigits (by omega), hpad, bodyDigits, padDigits, List.map_append,
    List.map_replicate]
  rfl

/-! Symbols and codes (spec/40_alphabet.md R59, R60, spec/44_codec.md R88 to R90). -/

theorem symbolOf_toNat_eq (d : Digit) : (symbolOf d).toNat = symbolCode d.toNat := by
  rw [← symbolOf_toNat d.isLt, BitVec.ofNat_toNat, BitVec.setWidth_eq]

theorem map_symbolOf_toNat (ds : List Digit) : (ds.map symbolOf).map (·.toNat) = (ds.map (·.toNat)).map symbolCode := by
  rw [List.map_map, List.map_map]
  exact List.map_congr_left fun d _ => symbolOf_toNat_eq d

theorem symbolOf_ne_sep : ∀ d : Digit, symbolOf d ≠ sep := by decide +kernel

/-- A symbol is its own normal form (R63). -/
theorem normalByte_symbolOf : ∀ d : Digit, normalByte (symbolOf d) = some (symbolOf d) := by decide +kernel

theorem isSymbol_symbolOf (d : Digit) : IsSymbol (symbolOf d) := by
  rw [← not_not (a := IsSymbol _), ← digitOf_eq_none_iff, digitOf_symbolOf]
  exact nofun

theorem exists_symbolOf_eq {c : Byte} (hc : IsSymbol c) : ∃ d, symbolOf d = c := by
  obtain ⟨d, hd⟩ := Option.ne_none_iff_exists'.mp (mt (digitOf_eq_none_iff c).mp (not_not.mpr hc))
  exact ⟨d, symbolOf_of_digitOf c d hd⟩

/-- A text of symbols spells a digit sequence. -/
theorem exists_digits_of_isSymbol {l : List Byte} (hl : ∀ c ∈ l, IsSymbol c) : ∃ ds : List Digit, ds.map symbolOf = l := by
  induction l with
  | nil => exact ⟨[], rfl⟩
  | cons c l ih =>
    obtain ⟨hc, htail⟩ := List.forall_mem_cons.mp hl
    obtain ⟨d, rfl⟩ := exists_symbolOf_eq hc
    obtain ⟨ds, rfl⟩ := ih htail
    exact ⟨d :: ds, rfl⟩

theorem forall_isSymbol_map_symbolOf (ds : List Digit) : ∀ c ∈ ds.map symbolOf, IsSymbol c :=
  List.forall_mem_map.mpr fun d _ => isSymbol_symbolOf d

theorem filterMap_digitOf_map_symbolOf (ds : List Digit) : (ds.map symbolOf).filterMap digitOf = ds := by
  rw [List.filterMap_map]
  exact (List.filterMap_congr fun d _ => digitOf_symbolOf d).trans List.filterMap_some

theorem filterMap_normalByte_map_symbolOf (ds : List Digit) : (ds.map symbolOf).filterMap normalByte = ds.map symbolOf := by
  rw [List.filterMap_map, ← List.filterMap_eq_map]
  exact List.filterMap_congr fun d _ => normalByte_symbolOf d

/-- The normal form of a code is its symbols: the dash is dropped (R64, R88). -/
theorem filterMap_normalByte_render (ds : List Digit) : (render ds).filterMap normalByte = ds.map symbolOf := by
  have hsep : [sep].filterMap normalByte = [] := by decide
  simp only [render, List.filterMap_append, hsep, ← List.map_take, ← List.map_drop, filterMap_normalByte_map_symbolOf,
    List.append_nil]
  rw [← List.map_append, List.take_append_drop]

theorem render_toNat (ds : List Digit) : (render ds).map (·.toNat) = ((ds.map (·.toNat)).map symbolCode).take 4 ++
    ['-'.toNat] ++ ((ds.map (·.toNat)).map symbolCode).drop 4 := by
  rw [← map_symbolOf_toNat, ← List.map_take, ← List.map_drop]
  simp only [render, List.map_append]
  rfl

theorem encodeCode_toNat (n : Nat) : (encodeCode n).map (·.toNat) = codeBytes (mask n) := by
  have hdigits : (bodyDigits n ++ [checksum (bodyDigits n)]).map (·.toNat) = bodyNat (mask n) ++ [checkNat (bodyNat (mask n))] := by
    rw [List.map_append, List.map_singleton, checksum_toNat, bodyDigits_toNat]
  rw [encodeCode, render_toNat, hdigits]
  rfl

theorem getD_map_symbolOf_ne_sep (ds : List Digit) (i : Nat) : (ds.map symbolOf).getD i 0 ≠ sep := by
  rw [List.getD_eq_getElem?_getD, List.getElem?_map]
  cases ds[i]? with
  | none => exact (by decide : (0 : Byte) ≠ sep)
  | some d => exact symbolOf_ne_sep d

/-- The dash is the fifth byte of a code and no other (R88). -/
theorem render_getD_eq_sep_iff {ds : List Digit} (hds : 4 ≤ ds.length) (i : Nat) : (render ds).getD i 0 = sep ↔ i = 4 := by
  match ds, hds, i with
  | a :: b :: c :: d :: ds, _, 0 => simpa [render, sepPos] using symbolOf_ne_sep a
  | a :: b :: c :: d :: ds, _, 1 => simpa [render, sepPos] using symbolOf_ne_sep b
  | a :: b :: c :: d :: ds, _, 2 => simpa [render, sepPos] using symbolOf_ne_sep c
  | a :: b :: c :: d :: ds, _, 3 => simpa [render, sepPos] using symbolOf_ne_sep d
  | a :: b :: c :: d :: ds, _, 4 => simp [render, sepPos]
  | a :: b :: c :: d :: ds, _, i + 5 => exact iff_of_false (getD_map_symbolOf_ne_sep ds i) (by omega)

end Sys2Proof.Machine

namespace Sys2Proof.Machine

open Sys2Proof.Safety

/-! ENCODE and DECODE over digit sequences (spec/44_codec.md R91, R92). -/

/-- An ENCODE that succeeds had an operand in range. -/
theorem exec_encode_success {s t : State} (h : exec .encode s = .next t) (herr : t.err = 0) :
    t = finish .none 0 0 (setOut (encodeCode (argNat s)) s) := by
  obtain ⟨code, hexec⟩ := exec_encode_of_arg (argNat s)
  obtain rfl := Host.Outcome.next.inj (h.symm.trans (hexec s rfl))
  rw [errNumber_eq_zero herr, if_pos rfl]

theorem encodeCode_length_eq (n : Nat) : (encodeCode n).length = bodyLength (mask n) + 2 := by
  rw [encodeCode_length, bodyDigits_length_eq]

theorem encodeCode_length_le (n : Nat) : (encodeCode n).length ≤ 64 := by
  have := bodyDigits_length n
  rw [encodeCode_length]
  omega

/-- The end of a command leaves the output text alone. -/
theorem outputText_finish (c : ErrCode) (y : Byte) (p : Nat) (s : State) : outputText (finish c y p s) = outputText s := rfl

/-- The digits of a code, the check digit last. -/
def codeDigits (n : Nat) : List Digit := bodyDigits n ++ [checksum (bodyDigits n)]

theorem encodeCode_eq_render (n : Nat) : encodeCode n = render (codeDigits n) := rfl

theorem checksum_codeDigits (n : Nat) : checksum (codeDigits n) = 0 :=
  (checksum_append_singleton_eq_zero_iff _ _).mpr rfl

theorem codeDigits_length (n : Nat) : 6 ≤ (codeDigits n).length ∧ (codeDigits n).length ≤ 8 := by
  have := bodyDigits_length n
  rw [codeDigits, List.length_append, List.length_singleton]
  omega

section
variable {s : State} {ds : List Digit} (htext : normalText s = ds.map symbolOf)
include htext

theorem exec_decode_of_digits_length (hlen : ds.length < 6 ∨ 8 < ds.length) :
    exec .decode s = .next (finish .lengthError 0 ds.length (setOut (ds.map symbolOf) s)) := by
  have hexec := exec_decode_of_length s (ds.map symbolOf) ((normChars_inputText s).trans htext)
    ((firstBad_eq_none_iff _).mpr (forall_isSymbol_map_symbolOf ds))
  rw [List.length_map] at hexec
  exact hexec hlen

theorem exec_decode_of_digits_mismatch (hlen : 6 ≤ ds.length ∧ ds.length ≤ 8) (hsum : checksum ds ≠ 0) :
    exec .decode s =
      .next (finish .checksumMismatch ((ds.map symbolOf).getD (ds.length - 1) 0) (ds.length - 1) (setOut (ds.map symbolOf) s)) := by
  have hexec := exec_decode_of_checksum s (ds.map symbolOf) ((normChars_inputText s).trans htext)
    ((firstBad_eq_none_iff _).mpr (forall_isSymbol_map_symbolOf ds))
  rw [List.length_map, filterMap_digitOf_map_symbolOf] at hexec
  exact hexec (by rw [decMinLen, decMaxLen]; omega) hsum

theorem exec_decode_of_digits_valid (hlen : 6 ≤ ds.length ∧ ds.length ≤ 8) (hsum : checksum ds = 0) :
    exec .decode s = .next (finish .none 0 0 (setRes (unmask (fromDigits ds.dropLast)) (setOut (ds.map symbolOf) s))) := by
  have hexec := exec_decode_of_valid s (ds.map symbolOf) ((normChars_inputText s).trans htext)
    ((firstBad_eq_none_iff _).mpr (forall_isSymbol_map_symbolOf ds))
  rw [List.length_map, filterMap_digitOf_map_symbolOf] at hexec
  exact hexec (by rw [decMinLen, decMaxLen]; omega) hsum

end

/-- A DECODE that succeeds had a text of 6 to 8 symbols with checksum 0. -/
theorem exec_decode_success {s t : State} (h : exec .decode s = .next t) (herr : t.err = 0) :
    ∃ ds : List Digit, normalText s = ds.map symbolOf ∧ (6 ≤ ds.length ∧ ds.length ≤ 8) ∧ checksum ds = 0 := by
  have failed {code : ErrCode} {sym : Byte} {pos : Nat} {s1 : State}
      (hexec : exec .decode s = .next (finish code sym pos s1)) (hcode : code ≠ .none) : False := by
    obtain rfl := Host.Outcome.next.inj (h.symm.trans hexec)
    exact hcode (errNumber_eq_zero herr)
  cases hbad : firstBad (normalText s) with
  | some k => exact (failed (exec_decode_of_bad s _ (normChars_inputText s) k hbad) nofun).elim
  | none =>
    obtain ⟨ds, hds⟩ := exists_digits_of_isSymbol ((firstBad_eq_none_iff _).mp hbad)
    have hlen : 6 ≤ ds.length ∧ ds.length ≤ 8 :=
      by_contra fun hlen => failed (exec_decode_of_digits_length hds.symm (by omega)) nofun
    have hsum : checksum ds = 0 :=
      by_contra fun hsum => failed (exec_decode_of_digits_mismatch hds.symm hlen hsum) nofun
    exact ⟨ds, hds.symm, hlen, hsum⟩

/-- A text whose symbols spell a sequence with another checksum fails with CHECKSUM_MISMATCH and keeps `RES`. -/
theorem exec_decode_detects {s : State} {ds es : List Digit} (htext : normalText s = es.map symbolOf)
    (hlen : 6 ≤ ds.length ∧ ds.length ≤ 8) (heq : es.length = ds.length) (hsum : checksum es ≠ 0) :
    ∃ u, exec .decode s = .next u ∧ u.err.toNat = 3 ∧ u.res = s.res :=
  ⟨_, exec_decode_of_digits_mismatch htext (heq ▸ hlen) hsum, rfl, rfl⟩

/-- DECODE of a text that normalizes as a code does (R93). -/
theorem exec_decode_of_code {s : State} {n : Nat} (htext : normalText s = (codeDigits n).map symbolOf) :
    exec .decode s = .next (finish .none 0 0 (setRes (unmask (mask n)) (setOut ((codeDigits n).map symbolOf) s))) := by
  rw [exec_decode_of_digits_valid htext (codeDigits_length n) (checksum_codeDigits n), codeDigits, List.dropLast_concat,
    fromDigits_bodyDigits]

/-- Digits given as numbers. -/
theorem exists_digits_of_lt {l : List Nat} (hl : ∀ d ∈ l, d < 32) : ∃ ds : List Digit, ds.map (·.toNat) = l := by
  refine ⟨l.map (BitVec.ofNat 5), ?_⟩
  rw [List.map_map]
  exact (List.map_congr_left fun d hd => Nat.mod_eq_of_lt (hl d hd)).trans (List.map_id l)

/-- A text given by its digits as numbers spells them. -/
theorem text_eq_map_symbolOf {l : List Byte} {ds : List Digit}
    (h : l.map (·.toNat) = (ds.map (·.toNat)).map symbolCode) : l = ds.map symbolOf := by
  rw [← map_symbolOf_toNat] at h
  exact List.map_injective_iff.mpr (fun _ _ => BitVec.eq_of_toNat_eq) h

theorem checkNat_eq_zero_iff (ds : List Digit) : checkNat (ds.map (·.toNat)) = 0 ↔ checksum ds = 0 := by
  rw [← checksum_toNat]
  exact BitVec.toNat_inj (y := 0)

/-- A text given by the numbers of its digits, the last one apart, spells those digits. -/
theorem exists_digits_of_codes {l : List Byte} {ns : List Nat} {n : Nat} (hlt : ∀ d ∈ ns ++ [n], d < 32)
    (htext : l.map (·.toNat) = (ns ++ [n]).map symbolCode) :
    ∃ (ds : List Digit) (d : Digit), ds.map (·.toNat) = ns ∧ d.toNat = n ∧ ns ++ [n] = (ds ++ [d]).map (·.toNat) ∧
      l = (ds ++ [d]).map symbolOf := by
  obtain ⟨hns, hn⟩ := List.forall_mem_append.mp hlt
  obtain ⟨ds, rfl⟩ := exists_digits_of_lt hns
  have hdigit : (BitVec.ofNat 5 n).toNat = n := Nat.mod_eq_of_lt (hn n (List.mem_singleton_self n))
  have hcodes : ds.map (·.toNat) ++ [n] = (ds ++ [BitVec.ofNat 5 n]).map (·.toNat) := by
    rw [List.map_append, List.map_singleton, hdigit]
  exact ⟨ds, BitVec.ofNat 5 n, rfl, hdigit, hcodes, text_eq_map_symbolOf (hcodes ▸ htext)⟩

/-- The normal form of a byte is its own normal form (spec/41_normalizer.md R66). -/
theorem normalByte_bind_normalByte : ∀ c : Byte, (normalByte c).bind normalByte = normalByte c := by decide +kernel

theorem normChars_normalText (s : State) : normChars (normalText s) = normalText s := by
  rw [normChars_eq_filterMap, normalText, List.filterMap_filterMap]
  exact List.filterMap_congr fun c _ => normalByte_bind_normalByte c

/-- A byte of a text that is no dash splits the normal form as it splits the text. -/
theorem filterMap_normalByte_append_cons {x a : Byte} (hx : normalByte x = some a) (before after : List Byte) :
    (before ++ x :: after).filterMap normalByte = before.filterMap normalByte ++ a :: after.filterMap normalByte := by
  rw [List.filterMap_append, List.filterMap_cons_some hx]

/-- A symbol in a text splits the digits that the text spells. -/
theorem digits_split {ds : List Digit} {before after : List Byte} {a : Byte}
    (h : ds.map symbolOf = before ++ a :: after) :
    ∃ (p q : List Digit) (d : Digit), ds = p ++ d :: q ∧ p.map symbolOf = before ∧ symbolOf d = a ∧ q.map symbolOf = after := by
  obtain ⟨p, dq, rfl, hp, hdq⟩ := List.map_eq_append_iff.mp h
  obtain ⟨d, q, rfl, hd, hq⟩ := List.map_eq_cons_iff.mp hdq
  exact ⟨p, q, d, rfl, hp, hd, hq⟩

section
variable {s s' : State} {ds : List Digit} (hds : normalText s = ds.map symbolOf) {x y a b : Byte}
include hds

/-- A text with one byte changed to another symbol spells the digits with one digit changed. -/
theorem digits_of_substitution {before after : List Byte} (hs : text s = before ++ x :: after)
    (hs' : text s' = before ++ y :: after) (hx : normalByte x = some a) (hy : normalByte y = some b) (hne : a ≠ b)
    (hb : IsSymbol b) :
    ∃ (p q : List Digit) (d e : Digit), d ≠ e ∧ ds = p ++ d :: q ∧ normalText s' = (p ++ e :: q).map symbolOf := by
  rw [normalText, hs, filterMap_normalByte_append_cons hx] at hds
  obtain ⟨p, q, d, rfl, hp, rfl, hq⟩ := digits_split hds.symm
  obtain ⟨e, rfl⟩ := exists_symbolOf_eq hb
  refine ⟨p, q, d, e, ne_of_apply_ne symbolOf hne, rfl, ?_⟩
  rw [normalText, hs', filterMap_normalByte_append_cons hy, List.map_append, List.map_cons, hp, hq]

/-- A text with two bytes swapped spells the digits with two digits swapped. -/
theorem digits_of_swap {before mid after : List Byte} (hs : text s = before ++ x :: mid ++ y :: after)
    (hs' : text s' = before ++ y :: mid ++ x :: after) (hx : normalByte x = some a) (hy : normalByte y = some b)
    (hne : a ≠ b) : ∃ (p q r : List Digit) (d e : Digit), d ≠ e ∧ ds = p ++ d :: q ++ e :: r ∧
      normalText s' = (p ++ e :: q ++ d :: r).map symbolOf := by
  rw [normalText, hs, filterMap_normalByte_append_cons hy, filterMap_normalByte_append_cons hx] at hds
  obtain ⟨pq, r, e, rfl, hpq, rfl, hr⟩ := digits_split hds.symm
  obtain ⟨p, q, d, rfl, hp, rfl, hq⟩ := digits_split hpq
  refine ⟨p, q, r, d, e, ne_of_apply_ne symbolOf hne, rfl, ?_⟩
  rw [normalText, hs', filterMap_normalByte_append_cons hx, filterMap_normalByte_append_cons hy, List.map_append,
    List.map_append, List.map_cons, List.map_cons, hp, hq, hr]

end

end Sys2Proof.Machine

namespace Sys2Proof.Proofs

open Sys2Proof.Machine Sys2Proof.Safety

/-- Settles O43. -/
theorem digitsAreBase32 : Obligations.DigitsAreBase32 := fun h =>
  ⟨fromDigits_toDigits h, toDigits_head_ne_zero h, fun k => toDigits_length_le_iff k h,
    (fromDigits_replicate_append _ _).trans (fromDigits_toDigits h), padDigits_length _⟩

/-- Settles O14: the padded digits of the loop are the digits by position. -/
theorem encodeWritesTheCode : Obligations.EncodeWritesTheCode := by
  refine ⟨by decide, fun s => ⟨fun hpos hlt => ?_, fun hout => ?_⟩⟩
  · rw [← mask_eq, ← encodeCode_toNat]
    exact onlyOut_of_finish_setOut (encodeCode_length_le _) (by decide)
      (exec_encode_of_mem s hpos (by rw [maxNumber]; omega))
  · exact onlyStatus_of_finish (exec_encode_of_not_mem s (by rw [maxNumber]; omega))

/-- Settles O44: two bytes more than the padded digits, and the dash among symbols. -/
theorem codeLengthFollowsTheMaskedValue : Obligations.CodeLengthFollowsTheMaskedValue := by
  intro s t h herr
  obtain rfl := exec_encode_success h herr
  have hle := encodeCode_length_le (argNat s)
  have hlen : (BitVec.ofNat 7 (encodeCode (argNat s)).length).toNat = bodyLength (mask (argNat s)) + 2 := by
    rw [BitVec.toNat_ofNat, ← encodeCode_length_eq]
    omega
  simp only [finish_obufLen, finish_obuf, setOut_obufLen, setOut_obuf]
  rw [← mask_eq, hlen, bodyLength]
  refine ⟨fun h5 => ?_, fun h5 h6 => ?_, fun h6 => ?_, fun i => ?_⟩
  · rw [if_pos h5]
  · rw [if_neg (Nat.not_lt.mpr h5), if_pos h6]
  · rw [if_neg (Nat.not_lt.mpr (le_trans (by norm_num) h6)), if_neg (Nat.not_lt.mpr h6)]
  · have hdigits := codeDigits_length (argNat s)
    rw [zeroFilled_get _ i.val i.isLt, encodeCode_eq_render, ← render_getD_eq_sep_iff (le_trans (by decide) hdigits.left) i.val]
    exact BitVec.toNat_inj (y := sep)

/-- Settles O15. -/
theorem decodeGivesTheCodedNumber : Obligations.DecodeGivesTheCodedNumber := by
  refine ⟨by decide, fun s ns n hlt htext hmin hmax hsum => ?_⟩
  obtain ⟨ds, d, hns, hn, hcodes, hspell⟩ := exists_digits_of_codes hlt htext
  rw [hcodes, List.length_map] at hmin hmax
  rw [hcodes, checkNat_eq_zero_iff] at hsum
  rw [hcodes, ← map_symbolOf_toNat, ← hns, ← unmask_eq, ← fromDigits_eq_valueNat]
  have hexec := exec_decode_of_digits_valid hspell ⟨hmin, hmax⟩ hsum
  rw [List.dropLast_concat] at hexec
  exact ⟨_, hexec, onlyResOut_setRes_setOut .., outIs_setOut _ (hspell ▸ normalText_length s) _ rfl rfl,
    Nat.mod_eq_of_lt ((unmask_lt _).trans (by decide)), reports_finish _ _ _ _ _ (by decide) rfl⟩

/-- Settles O16. -/
theorem decodeReportsTheFirstFailedCheck : Obligations.DecodeReportsTheFirstFailedCheck := by
  refine fun s => ⟨fun before c after hsplit hbefore hc => ?_, fun hall hlen => ?_, fun ns n hlt htext hmin hmax hsum => ?_⟩
  · have hbad : firstBad (normalText s) = some before.length := hsplit ▸ firstBad_append_cons after hbefore hc
    have hbyte : (normalText s).getD before.length 0 = c := by simp [hsplit]
    have hpos : before.length ≤ 64 := (firstBad_lt _ _ hbad).le.trans (normalText_length s)
    have hexec := exec_decode_of_bad s _ (normChars_inputText s) _ hbad
    rw [hbyte] at hexec
    exact onlyOut_of_finish_setOut (normalText_length s) hpos hexec
  · have hexec := exec_decode_of_length s _ (normChars_inputText s) ((firstBad_eq_none_iff _).mpr hall) hlen
    exact onlyOut_of_finish_setOut (normalText_length s) (normalText_length s) hexec
  · obtain ⟨ds, d, hns, hn, hcodes, hspell⟩ := exists_digits_of_codes hlt htext
    rw [hcodes, List.length_map] at hmin hmax
    rw [hcodes, Ne, checkNat_eq_zero_iff] at hsum
    rw [hcodes, ← map_symbolOf_toNat, ← hns, ← hn, ← symbolOf_toNat_eq, List.length_map]
    have hlast : ((ds ++ [d]).map symbolOf).getD ds.length 0 = symbolOf d := by simp
    have hexec := exec_decode_of_digits_mismatch hspell ⟨hmin, hmax⟩ hsum
    rw [List.length_append, List.length_singleton, Nat.add_sub_cancel, hlast] at hexec
    rw [List.length_append, List.length_singleton] at hmax
    exact onlyOut_of_finish_setOut (hspell ▸ normalText_length s) (by omega) hexec

/-- Settles O45. -/
theorem normalizeIsIdempotent : Obligations.NormalizeIsIdempotent := by
  intro s t s' t' h hibuf hibufLen h'
  obtain ⟨code, sym, pos, hexec⟩ := exec_normalize_of_text (normalText s)
  obtain rfl := Host.Outcome.next.inj (h.symm.trans (hexec s (normChars_inputText s)))
  have hout : inputText s' = outputText (finish code sym pos (setOut (normalText s) s)) := by
    rw [inputText, outputText, hibuf, hibufLen]
  have hnormal : normChars (inputText s') = normalText s := by
    rw [hout, outputText_finish, outputText_setOut _ s (normalText_length s), normChars_normalText]
  obtain rfl := Host.Outcome.next.inj (h'.symm.trans (hexec s' hnormal))
  exact ⟨rfl, rfl, rfl, rfl, rfl⟩

/-- Settles O46. -/
theorem decodeOfEncodeIsTheNumber : Obligations.DecodeOfEncodeIsTheNumber := by
  intro s t s' hpos hlt h htext
  obtain rfl := Host.Outcome.next.inj (h.symm.trans (exec_encode_of_mem s hpos (by rw [maxNumber]; omega)))
  rw [outputText_finish, outputText_setOut _ s (encodeCode_length_le _), encodeCode_eq_render,
    filterMap_normalByte_render] at htext
  refine ⟨_, exec_decode_of_code htext, ?_, rfl, ?_⟩
  · rw [finish_res, setRes_res, unmask_mask hlt, BitVec.ofNat_toNat, BitVec.setWidth_eq]
  · rw [finish_none_sticky, setRes_sticky, setOut_sticky]

/-- Settles O47: the digits of the other text differ from the accepted ones in one place, or by a swap at a distance of at
most 7. -/
theorem decodeDetectsOneWrongOrSwappedSymbol : Obligations.DecodeDetectsOneWrongOrSwappedSymbol := by
  intro s t s' a b h herr hchange
  obtain ⟨ds, hds, hlen, hsum⟩ := exec_decode_success h herr
  obtain ⟨before, after, x, y, hs, hs', hx, hy, hne, hb⟩ | ⟨before, mid, after, x, y, hs, hs', hx, hy, hne⟩ := hchange
  · obtain ⟨p, q, d, e, hde, rfl, htext⟩ := digits_of_substitution hds hs hs' hx hy hne hb
    exact exec_decode_detects htext hlen (by simp) (hsum ▸ checksum_substitution_ne p q hde)
  · obtain ⟨p, q, r, d, e, hde, rfl, htext⟩ := digits_of_swap hds hs hs' hx hy hne
    have hmid : q.length + 1 ≤ 30 := by
      obtain ⟨-, hmax⟩ := hlen
      simp only [List.length_append, List.length_cons] at hmax
      omega
    exact exec_decode_detects htext hlen (by simp) (hsum ▸ checksum_swap_ne p r hde hmid)

end Sys2Proof.Proofs
